-- ==== Sys2Proof/Word.lean ====
section
/-! DEFINITION. The widths of the machine (00_scope.md R5) and nothing else: names for the
bit vectors the spec treats as bits. -/

namespace Sys2Proof

/-- One byte of memory (R30: "a flat array of bytes (8 bits each)"). -/
abbrev Byte := BitVec 8

/-- A general register's or a floating-point register's contents: XLEN = FLEN = 64 (R5, R10, R14).
A floating-point register holds the raw IEEE-754 binary64 pattern, never a number (R14). -/
abbrev Doubleword := BitVec 64

/-- An effective address: EA_BITS = 32 (R5, R30, R75). -/
abbrev Addr := BitVec 32

/-- An instruction word: ILEN = 32, fixed (R5, R50, R51). -/
abbrev InsnWord := BitVec 32

/-- The program counter, held in the widest width R17 and D2 allow it (64 bits).  The width the machine
has, PC_BITS, is `Config.pcWidth`. -/
abbrev PcWord := BitVec 64

/-- The contents of a register or a field the spec names without giving it a width (CR, the fields of XER, FPSCR, a
vector register: R19 to R22).  A natural number is a pattern of any width, so no width is assumed (N10, N12; log 6). -/
abbrev Image := Nat

end Sys2Proof
end

