-- ==== Sys2Proof/Syntax.lean ====
section
/-! DEFINITION. The instructions: one constructor per row of spec/opcode_table.json
(30_encoding.md R55), with the operand fields of R52 to R54. -/

namespace Sys2Proof

/-- The number of a general register, r0 to r31 (R10, R53: no value of the field is excluded). -/
abbrev GprNum := Fin 32

/-- The number of a floating-point register, 0 to 31 (R13, R53). -/
abbrev FprNum := Fin 32

/-- The four instructions in scope (R3).  `frt` always names a floating-point register, `ra` and `rb` general
registers (R53, R59); `d` is the displacement field D, signed when used (R54). -/
inductive Instr where
  /-- Load Floating-Point Double, form D (R71). -/
  | lfd (frt : FprNum) (ra : GprNum) (d : BitVec 16)
  /-- Load Floating-Point Double with Update, form D (R72). -/
  | lfdu (frt : FprNum) (ra : GprNum) (d : BitVec 16)
  /-- Load Floating-Point Double with Update Indexed, form X (R73). -/
  | lfdux (frt : FprNum) (ra rb : GprNum)
  /-- Load Floating-Point Double Indexed, form X (R74). -/
  | lfdx (frt : FprNum) (ra rb : GprNum)
deriving DecidableEq, Repr

end Sys2Proof
end

