-- ==== Sys2Proof/Decode.lean ====
section
/-! DEFINITION. Decoding and encoding (30_encoding.md R50 to R60), both written from the
field tables of R52 and the opcode map of R55.  The decoder is total: every word and every list of bytes gets
one verdict, an instruction or a rejection by name. -/

namespace Sys2Proof

/-! ### The fields of an instruction word (R52, LSB-0 slices of R6) -/

/-- OPCD, the primary opcode: `iw[31:26]`. -/
def fieldOpcd (iw : InsnWord) : BitVec 6 := iw.extractLsb' 26 6

/-- FRT: `iw[25:21]`. -/
def fieldFrt (iw : InsnWord) : BitVec 5 := iw.extractLsb' 21 5

/-- RA: `iw[20:16]`. -/
def fieldRa (iw : InsnWord) : BitVec 5 := iw.extractLsb' 16 5

/-- RB of form X: `iw[15:11]`. -/
def fieldRb (iw : InsnWord) : BitVec 5 := iw.extractLsb' 11 5

/-- D of form D: `iw[15:0]`. -/
def fieldD (iw : InsnWord) : BitVec 16 := iw.extractLsb' 0 16

/-- XO of form X, the extended opcode: `iw[10:1]`. -/
def fieldXo (iw : InsnWord) : BitVec 10 := iw.extractLsb' 1 10

/-- Rc of form X: `iw[0]`. -/
def fieldRc (iw : InsnWord) : BitVec 1 := iw.extractLsb' 0 1

/-- R53: a register field is an unsigned number used directly as the register's number. -/
def regNum (b : BitVec 5) : Fin 32 := ⟨b.toNat, b.isLt⟩

/-- The 5-bit field that holds a register's number. -/
def regBits (r : Fin 32) : BitVec 5 := BitVec.ofNat 5 r.val

/-! ### The opcode map (R55) -/

/-- Primary opcode of `lfd`. -/
def opcdLfd : BitVec 6 := 50

/-- Primary opcode of `lfdu`. -/
def opcdLfdu : BitVec 6 := 51

/-- Primary opcode of the two indexed forms. -/
def opcdX : BitVec 6 := 31

/-- Extended opcode of `lfdx`. -/
def xoLfdx : BitVec 10 := 599

/-- Extended opcode of `lfdux`. -/
def xoLfdux : BitVec 10 := 631

/-! ### Decoding (R56) -/

/-- Why a word is no instruction of the model. -/
inductive Reject where
  /-- R60: the word matches no row of the opcode map. -/
  | notInScope (iw : InsnWord)
  /-- R57: OPCD and XO of `lfdx` or `lfdux`, and `iw[0] = 1`. -/
  | reservedBitSet (iw : InsnWord)
deriving DecidableEq, Repr

/-- R57: the Rc bit of an indexed form must be 0. -/
def requireRcZero (iw : InsnWord) (i : Instr) : Except Reject Instr :=
  if fieldRc iw = 0 then .ok i else .error (.reservedBitSet iw)

/-- R56, the decoding procedure. -/
def decode (iw : InsnWord) : Except Reject Instr :=
  if fieldOpcd iw = opcdLfd then
    .ok (.lfd (regNum (fieldFrt iw)) (regNum (fieldRa iw)) (fieldD iw))
  else if fieldOpcd iw = opcdLfdu then
    .ok (.lfdu (regNum (fieldFrt iw)) (regNum (fieldRa iw)) (fieldD iw))
  else if fieldOpcd iw = opcdX ∧ fieldXo iw = xoLfdx then
    requireRcZero iw (.lfdx (regNum (fieldFrt iw)) (regNum (fieldRa iw)) (regNum (fieldRb iw)))
  else if fieldOpcd iw = opcdX ∧ fieldXo iw = xoLfdux then
    requireRcZero iw (.lfdux (regNum (fieldFrt iw)) (regNum (fieldRa iw)) (regNum (fieldRb iw)))
  else
    .error (.notInScope iw)

/-! ### Encoding -/

/-- Form D (R52): OPCD, FRT, RA, D. -/
def formD (opcd : BitVec 6) (frt : FprNum) (ra : GprNum) (d : BitVec 16) : InsnWord :=
  opcd ++ regBits frt ++ regBits ra ++ d

/-- Form X (R52): OPCD, FRT, RA, RB, XO, Rc; Rc is 0 in every word of the family (R55, R57). -/
def formX (opcd : BitVec 6) (frt : FprNum) (ra rb : GprNum) (xo : BitVec 10) : InsnWord :=
  opcd ++ regBits frt ++ regBits ra ++ regBits rb ++ xo ++ 0#1

/-- The word of an instruction. -/
def encode : Instr → InsnWord
  | .lfd frt ra d => formD opcdLfd frt ra d
  | .lfdu frt ra d => formD opcdLfdu frt ra d
  | .lfdux frt ra rb => formX opcdX frt ra rb xoLfdux
  | .lfdx frt ra rb => formX opcdX frt ra rb xoLfdx

/-- The mask of an instruction's row of the opcode map (R55). -/
def rowMask : Instr → InsnWord
  | .lfd _ _ _ => 0xFC000000
  | .lfdu _ _ _ => 0xFC000000
  | .lfdux _ _ _ => 0xFC0007FF
  | .lfdx _ _ _ => 0xFC0007FF

/-- The match of an instruction's row of the opcode map (R55): the source's opcode word. -/
def rowMatch : Instr → InsnWord
  | .lfd _ _ _ => 0xC8000000
  | .lfdu _ _ _ => 0xCC000000
  | .lfdux _ _ _ => 0x7C0004EE
  | .lfdx _ _ _ => 0x7C0004AE

/-! ### Bytes (R35: a word lies in memory big-endian) -/

/-- The four bytes of a word in ascending address order. -/
def wordBytes (w : InsnWord) : List Byte :=
  [w.extractLsb' 24 8, w.extractLsb' 16 8, w.extractLsb' 8 8, w.extractLsb' 0 8]

/-- The word that four bytes in ascending address order spell. -/
def wordOfBytes (b0 b1 b2 b3 : Byte) : InsnWord := b0 ++ b1 ++ b2 ++ b3

/-- Why a list of bytes does not begin with an instruction. -/
inductive ByteReject where
  /-- Fewer than the four bytes of a word (R50). -/
  | truncated (length : Nat)
  /-- The first word is no instruction. -/
  | word (why : Reject)
deriving DecidableEq, Repr

/-- The instruction at the head of a list of bytes, and the bytes after it. -/
def decodeBytes : List Byte → Except ByteReject (Instr × List Byte)
  | b0 :: b1 :: b2 :: b3 :: rest =>
    match decode (wordOfBytes b0 b1 b2 b3) with
    | .ok i => .ok (i, rest)
    | .error why => .error (.word why)
  | bytes => .error (.truncated bytes.length)

/-- The word whose bits, numbered as spec/opcode_table.json numbers them, are the low `nbits` bits of `w`, every
bit above them 0. -/
def tableWord (nbits w : Nat) : InsnWord := BitVec.ofNat 32 (w % 2 ^ nbits)

/-- The instruction the decoder reads from the bytes of `tableWord nbits w`. -/
def decodeTableWord (nbits w : Nat) : Option Instr :=
  match decodeBytes (wordBytes (tableWord nbits w)) with
  | .ok (i, _) => some i
  | .error _ => none

end Sys2Proof
end

