-- ==== Sys2Proof/Config.lean ====
section
/-! DEFINITION. The open parameters of the spec (00_scope.md R5, the table at the end of
92_eei_decisions.md) that are fixed for one machine: PC_BITS, `Admit`, INVALID_FORM_POLICY.
The other open parameters are the launch values of the state itself (`Machine/State.lean`) and the end of a
run (`Safety.lean`).  A state carries its configuration, so a statement over every state is a statement over
every configuration; no instruction changes it.  The spec leaves no value free, so nothing here is opaque. -/

namespace Sys2Proof

/-- PC_BITS, "`PC_BITS` | 32 or 64 | 32 | D2" (92_eei_decisions.md). -/
inductive PcWidth where
  | bits32
  | bits64
deriving DecidableEq, Repr

/-- The number PC_BITS. -/
def PcWidth.bits : PcWidth → Nat
  | .bits32 => 32
  | .bits64 => 64

/-- INVALID_FORM_POLICY for `lfdu`/`lfdux` with RA = 0 (R58, D11). -/
inductive InvalidFormPolicy where
  /-- The spec's default: the step is `refuse(InvalidForm(iw))`. -/
  | refuse
  /-- The step performs R72 or R73 with RA = 0, as the emulator's snapshot does. -/
  | snapshot
deriving DecidableEq, Repr

/-- One entry of `Admit` as plain data: the accesses (address, byte count) it admits. -/
inductive Admission where
  /-- Every access that lies wholly in the `size` bytes from address `base` on. -/
  | range (base size : Nat)
  /-- The accesses of exactly `count` bytes at the addresses `first`, `first + stride`, …, `number` of them. -/
  | accesses (count first stride number : Nat)
deriving DecidableEq, Repr

/-- The configuration of one machine. -/
structure Config where
  /-- PC_BITS (R17, D2). -/
  pcWidth : PcWidth
  /-- `Admit` (R31, D5) as plain data: an access is admitted when some entry admits it.  Every predicate on an address
  and a byte count is such a list (`every_predicate_is_an_admission`).  DESIGN CHOICE of the form (log 4). -/
  admitted : List Admission
  /-- INVALID_FORM_POLICY (R58, D11). -/
  invalidForm : InvalidFormPolicy
deriving DecidableEq, Repr

/-- PC_BITS and INVALID_FORM_POLICY at the spec's defaults.  The spec gives `Admit` no default ("none: must be
given"); the whole 32-bit space is the model's.  DESIGN CHOICE (log 5). -/
def Config.default : Config where
  pcWidth := .bits32
  admitted := [.range 0 0x100000000]
  invalidForm := .refuse

end Sys2Proof
end

