-- ==== Sys2Proof/Machine/State.lean ====
section
/-! DEFINITION. The state of the machine (10_state.md R10 to R24, 20_memory.md R30, R31), why a
step may stop (60_exceptions.md R90 to R94), and the state after reset. -/

namespace Sys2Proof.Machine

/-- Memory (R30): the bytes of the 32-bit space as (address, byte) pairs in one canonical form,
`Memory.wf` of `Machine/Ops.lean`. -/
abbrev Memory := List Host.Cell

/-- XER: the three fields the spec names, CA, OV and SO (R20).  Everything else about it is not in the source (N10),
the widths of the three fields included: each is a number of any width, and nothing else of XER is held.  DESIGN CHOICE
(log 6). -/
structure Xer where
  ca : Image
  ov : Image
  so : Image
deriving DecidableEq, Repr

/-- Every piece of state the spec gives the machine (INVENTORY.md, State). -/
@[ext]
structure State where
  /-- r0 to r31, 64 bits each, none hardwired (R10). -/
  gpr : Vector Doubleword 32
  /-- The floating-point registers, raw 64-bit patterns (R13, R14). -/
  fpr : Vector Doubleword 32
  /-- The address of the instruction being executed (R16, R17). -/
  pc : PcWord
  /-- MSR.FP, "the model should hold `MSR.FP` as a Boolean" (R18).  N11: no other field of MSR exists in the model. -/
  msrFp : Bool
  /-- CR, named only (R19): a number of any width.  DESIGN CHOICE (log 6). -/
  cr : Image
  /-- XER (R20, log 6). -/
  xer : Xer
  /-- FPSCR, named only (R21): a number of any width.  DESIGN CHOICE (log 6). -/
  fpscr : Image
  /-- The vector registers, named only (R22): register k is the k-th entry, 0 past the end of the list.
  No count and no width is assumed.  DESIGN CHOICE (log 6). -/
  vr : List Image
  /-- Memory (R30, R31). -/
  mem : Memory
  /-- The open parameters, constant over a run (R5). -/
  config : Config
deriving DecidableEq, Repr

/-- Why the machine stops with a fault (R8: "the hardware would take an exception, or memory does not admit the
access").  The state is the one before the step. -/
inductive Fault where
  /-- Floating-Point Unavailable (R90): raised by every instruction of the family when `MSR.FP = 0`.  Its entry is
  not in the source (R98).  Safe: the hardware could handle it and go on, the model stops. -/
  | fpUnavailable
  /-- `MemFault(addr)` (R32, R93): raised by a load or a fetch whose bytes are not admitted.  Safe. -/
  | memFault (addr : Addr)
deriving DecidableEq, Repr

/-- Why a step has no meaning (R94, a closed list, and `notModelled`). -/
inductive Refusal where
  /-- An arm of `exec` without a meaning; no arm answers it in this model.  Safe. -/
  | notModelled (mnemonic : String)
  /-- R60: no source shows the word; from `fetch`.  Safe. -/
  | notInScope (iw : InsnWord)
  /-- R57: a word of `lfdx` or `lfdux` with `iw[0] = 1`; from `fetch`.  Safe. -/
  | reservedBitSet (iw : InsnWord)
  /-- R58: `lfdu` or `lfdux` with RA = 0 under the policy `refuse`; from their meanings.  Safe. -/
  | invalidForm (iw : InsnWord)
  /-- R17, D2: the pc is the last word of its width or names no byte of memory; from `fetch`.  Safe. -/
  | pcWrap (pc : PcWord)
  /-- R37, D4: the pc is no multiple of 4; from `fetch`.  Safe. -/
  | pcMisaligned (pc : PcWord)
deriving DecidableEq, Repr

/-- What running an instruction answers (R8). -/
abbrev Exec := Host.Outcome State Fault Refusal

/-- The machine after reset.  The spec describes none: a run starts from a launch state (R24, R110), and any state is
one.  MSR.FP, PC_BITS and INVALID_FORM_POLICY stand at the spec's defaults (D16, D2, D11); every other value is the
model's.  DESIGN CHOICE (log 1, 2, 3, 5). -/
def State.reset : State where
  gpr := Vector.replicate 32 0
  fpr := Vector.replicate 32 0
  pc := 0
  msrFp := true
  cr := 0
  xer := { ca := 0, ov := 0, so := 0 }
  fpscr := 0
  vr := []
  mem := []
  config := Config.default

end Sys2Proof.Machine
end

