-- ==== Sys2Proof/Machine/Ops.lean ====
section
/-! DEFINITION. The named operations over memory, registers and the program counter, and the
raising of an exception: the pseudocode primitives of 00_scope.md R7. -/

namespace Sys2Proof.Machine

/-! ### Memory as bytes (20_memory.md R30, R34) -/

/-- What an address that memory does not list reads as.  The spec's memory is a launch parameter (R31) and has no reset
contents.  DESIGN CHOICE (log 3). -/
def unlistedByte : Byte := 0

/-- `Mem[a]`. -/
def Memory.read : Memory → Nat → Byte
  | [], _ => unlistedByte
  | (a', b) :: m, a => if a = a' then b else Memory.read m a

/-- Memory with byte `b` at address `a`; a canonical memory stays canonical. -/
def Memory.write : Memory → Nat → Byte → Memory
  | [], a, b => if b = unlistedByte then [] else [(a, b)]
  | (a', b') :: m, a, b =>
    if a < a' then (if b = unlistedByte then (a', b') :: m else (a, b) :: (a', b') :: m)
    else if a = a' then (if b = unlistedByte then m else (a, b) :: m)
    else (a', b') :: Memory.write m a b

/-- Addresses strictly rising from `lo` on and below 2^32, and no byte that an unlisted address reads as. -/
def Memory.wfFrom (lo : Nat) : Memory → Bool
  | [] => true
  | (a, b) :: m =>
    decide (lo ≤ a) && decide (a < 2 ^ 32) && decide (b ≠ unlistedByte) && Memory.wfFrom (a + 1) m

/-- The canonical form of memory. -/
def Memory.wf (m : Memory) : Bool := Memory.wfFrom 0 m

/-- The `n` bytes from address `a` on as one value, big-endian: the byte at `a` is the most significant (R33, R34). -/
def Memory.readBE (m : Memory) (a : Nat) : (n : Nat) → BitVec (8 * n)
  | 0 => 0#0
  | n + 1 => Memory.readBE m a n ++ m.read (a + n)

/-- Memory with `v` in the `n` bytes from address `a` on, big-endian. -/
def Memory.writeBE (m : Memory) (a : Nat) : (n : Nat) → BitVec (8 * n) → Memory
  | 0, _ => m
  | n + 1, v => Memory.write (Memory.writeBE m a n (v.extractLsb' 8 (8 * n))) (a + n) (v.extractLsb' 0 8)

/-! ### Admission and the access primitives (R31, R32) -/

/-- The entry admits an access of `n` bytes at address `a`. -/
def admissionCovers (e : Admission) (a n : Nat) : Bool :=
  match e with
  | .range base size => decide (base ≤ a) && decide (a + n ≤ base + size)
  | .accesses count first stride number =>
    decide (n = count) && decide (first ≤ a) && decide ((a - first) % stride = 0) &&
      decide ((a - first) / stride < number)

/-- `Admit(a, n)` (R31). -/
def admitPredicate (c : Config) (a n : Nat) : Bool := c.admitted.any (fun e => admissionCovers e a n)

/-- `Admit(addr, n)` together with `addr + n - 1 ≤ 0xFFFFFFFF` (R31, R32): no access passes the top of the space (D6). -/
def admits (c : Config) (addr : Addr) (n : Nat) : Bool :=
  decide (addr.toNat + n ≤ 2 ^ 32) && admitPredicate c addr.toNat n

/-- `MemRead(addr, n)` (R7, R32, R34); `none` where the range is not admitted.  Any alignment (R36); no side effect
(R38); no translation (R40). -/
def memRead (s : State) (addr : Addr) (n : Nat) : Option (BitVec (8 * n)) :=
  if admits s.config addr n then some (s.mem.readBE addr.toNat n) else none

/-- `MemWrite(addr, n, v)`, "the matching write" (R7); `none` where the range is not admitted.  No instruction in scope
writes memory (R38). -/
def memWrite (s : State) (addr : Addr) (n : Nat) (v : BitVec (8 * n)) : Option State :=
  if admits s.config addr n then some { s with mem := s.mem.writeBE addr.toNat n v } else none

/-! ### Registers (10_state.md R10 to R16) -/

/-- `GPR[r]`: r0 is an ordinary register (R10). -/
def readGpr (s : State) (r : GprNum) : Doubleword := s.gpr[r.val]

/-- `GPR[r] <- v`. -/
def writeGpr (s : State) (r : GprNum) (v : Doubleword) : State := { s with gpr := s.gpr.set r.val v }

/-- `FPR[r]`: nothing in scope reads it (R14, R15). -/
def readFpr (s : State) (r : FprNum) : Doubleword := s.fpr[r.val]

/-- `FPR[r] <- v`: the pattern is kept bit for bit (R14, R76). -/
def writeFpr (s : State) (r : FprNum) (v : Doubleword) : State := { s with fpr := s.fpr.set r.val v }

/-- Vector register `k` (R22): nothing in scope reads or writes one. -/
def readVr (s : State) (k : Nat) : Image := s.vr.getD k 0

/-- `pc + 4` modulo 2^PC_BITS (R7, R16).  `step` refuses the pc at which it would wrap (R17). -/
def nextPc (c : Config) (pc : PcWord) : PcWord := BitVec.ofNat 64 ((pc.toNat + 4) % 2 ^ c.pcWidth.bits)

/-- `pc <- pc + 4` (R16). -/
def advancePc (s : State) : State := { s with pc := nextPc s.config s.pc }

/-! ### Exceptions and refusals -/

/-- Taking an exception (R8, R90, R98): "an exception is a **fault outcome**".  The spec gives no saved register, no
status change, no vector and no handler, so nothing is written; nor a return from one (R99). -/
def raiseException (e : Fault) : Exec := .fault e

/-- R58: the update forms with RA = 0 under INVALID_FORM_POLICY; any other form, and every form under `snapshot`, goes
on to `k`. -/
def unlessInvalidForm (i : Instr) (ra : GprNum) (s : State) (k : Exec) : Exec :=
  if ra = 0 ∧ s.config.invalidForm = .refuse then .refused (.invalidForm (encode i)) else k

end Sys2Proof.Machine
end

