-- ==== Sys2Proof/Machine/Flags.lean ====
section
/-! DEFINITION. Flags and status.  The family computes no flag: "No condition-register or
status-register effects" (R19, R70), "No FPSCR side effects" (R21, R92).  What is left is the test of MSR.FP. -/

namespace Sys2Proof.Machine

/-- The floating-point unit is enabled: `MSR.FP = 1` (R18). -/
def fpAvailable (s : State) : Bool := s.msrFp

/-- R90 and step 1 of R77: an instruction that accesses a floating-point register raises Floating-Point Unavailable
when the unit is disabled, before anything is read or written; else it goes on to `k`. -/
def requireFp (s : State) (k : Exec) : Exec :=
  if fpAvailable s then k else raiseException .fpUnavailable

end Sys2Proof.Machine
end

