-- ==== Sys2Proof/Machine/Operands.lean ====
section
/-! DEFINITION. The operand forms and the effective address (10_state.md R11, 30_encoding.md
R53, R54, 40_fp_load_double.md R70, R75). -/

namespace Sys2Proof.Machine

/-- The RA0 role of `lfd` and `lfdx` (R11): the literal 64-bit zero when the field is 0, else the register. -/
def baseRA0 (s : State) (ra : GprNum) : Doubleword := if ra = 0 then 0 else readGpr s ra

/-- The plain RA operand of `lfdu` and `lfdux` (R11): the register, r0 included. -/
def baseRA (s : State) (ra : GprNum) : Doubleword := readGpr s ra

/-- The RB operand (R11): the register, never a literal zero. -/
def indexRB (s : State) (rb : GprNum) : Doubleword := readGpr s rb

/-- The displacement, `sext_64(D)` (R54). -/
def displacement (d : BitVec 16) : Doubleword := d.signExtend 64

/-- R75: `sum <- base + offset` modulo 2^64, `EA <- sum[31:0]`. -/
def effectiveAddress (base offset : Doubleword) : Addr := (base + offset).extractLsb' 0 32

/-- The effective address of an instruction (R70 to R74). -/
def eaOf (i : Instr) (s : State) : Addr :=
  match i with
  | .lfd _ ra d => effectiveAddress (baseRA0 s ra) (displacement d)
  | .lfdu _ ra d => effectiveAddress (baseRA s ra) (displacement d)
  | .lfdux _ ra rb => effectiveAddress (baseRA s ra) (indexRB s rb)
  | .lfdx _ ra rb => effectiveAddress (baseRA0 s ra) (indexRB s rb)

/-- The destination FRT of an instruction (R15). -/
def destOf : Instr → FprNum
  | .lfd frt _ _ => frt
  | .lfdu frt _ _ => frt
  | .lfdux frt _ _ => frt
  | .lfdx frt _ _ => frt

/-- The general register an instruction writes (R12): RA in the update forms, none in the others. -/
def updatedOf : Instr → Option GprNum
  | .lfd _ _ _ => none
  | .lfdu _ ra _ => some ra
  | .lfdux _ ra _ => some ra
  | .lfdx _ _ _ => none

end Sys2Proof.Machine
end

