-- ==== Sys2Proof/Machine/FpLoad.lean ====
section
/-! DEFINITION. The meanings of the four instructions: load floating-point double
(40_fp_load_double.md R70 to R77).  Each follows the order of checks of R77: MSR.FP, the invalid form, the registers,
memory, then all writes. -/

namespace Sys2Proof.Machine

/-- R70, R76, R77 for a non-update form: read 8 bytes at `ea` and write them unchanged to FRT. -/
def loadDouble (frt : FprNum) (ea : Addr) (s : State) : Exec :=
  match memRead s ea 8 with
  | none => raiseException (.memFault ea)
  | some v => .next (advancePc (writeFpr s frt v))

/-- R70, R76, R77 for an update form: as `loadDouble`, and RA receives `zext_64(EA)` (R12); a load that faults leaves
RA as it was (D23). -/
def loadDoubleUpdate (frt : FprNum) (ra : GprNum) (ea : Addr) (s : State) : Exec :=
  match memRead s ea 8 with
  | none => raiseException (.memFault ea)
  | some v => .next (advancePc (writeGpr (writeFpr s frt v) ra (ea.setWidth 64)))

/-- `lfd` (R71). -/
def execLfd (frt : FprNum) (ra : GprNum) (d : BitVec 16) (s : State) : Exec :=
  requireFp s (loadDouble frt (effectiveAddress (baseRA0 s ra) (displacement d)) s)

/-- `lfdu` (R72). -/
def execLfdu (frt : FprNum) (ra : GprNum) (d : BitVec 16) (s : State) : Exec :=
  requireFp s <| unlessInvalidForm (.lfdu frt ra d) ra s <|
    loadDoubleUpdate frt ra (effectiveAddress (baseRA s ra) (displacement d)) s

/-- `lfdux` (R73).  Both operands are read before RA is written, RA = RB included. -/
def execLfdux (frt : FprNum) (ra rb : GprNum) (s : State) : Exec :=
  requireFp s <| unlessInvalidForm (.lfdux frt ra rb) ra s <|
    loadDoubleUpdate frt ra (effectiveAddress (baseRA s ra) (indexRB s rb)) s

/-- `lfdx` (R74). -/
def execLfdx (frt : FprNum) (ra rb : GprNum) (s : State) : Exec :=
  requireFp s (loadDouble frt (effectiveAddress (baseRA0 s ra) (indexRB s rb)) s)

end Sys2Proof.Machine
end

