-- ==== Sys2Proof/Machine/Dispatch.lean ====
section
/-! DEFINITION. One arm per instruction, each a direct call of its meaning. -/

namespace Sys2Proof.Machine

def exec (i : Instr) (s : State) : Host.Outcome State Fault Refusal :=
  match i with
  | .lfd frt ra d => Sys2Proof.Machine.execLfd frt ra d s
  | .lfdu frt ra d => Sys2Proof.Machine.execLfdu frt ra d s
  | .lfdux frt ra rb => Sys2Proof.Machine.execLfdux frt ra rb s
  | .lfdx frt ra rb => Sys2Proof.Machine.execLfdx frt ra rb s

end Sys2Proof.Machine
end

