-- ==== Sys2Proof/Machine/Fetch.lean ====
section
/-! DEFINITION. Fetching an instruction (00_scope.md R8, 20_memory.md R35, R37, 30_encoding.md
R50), in the order of 60_exceptions.md R97, and placing a word where it is fetched. -/

namespace Sys2Proof.Machine

/-- The address the fetch reads: the pc as a 32-bit address. -/
def fetchAddr (s : State) : Addr := s.pc.setWidth 32

/-- R94, R97 (1): the refusal of a fetch, `PcMisaligned` (R37) before `PcWrap` (R17).  A pc above `0xFFFFFFFF` names no
byte of memory and is "refused in the same way" (R17).  DEDUCED: the order of the two and that pc's reason (log 10). -/
def pcRefusal (s : State) : Option Refusal :=
  if s.pc.toNat % 4 ≠ 0 then some (.pcMisaligned s.pc)
  else if 2 ^ 32 ≤ s.pc.toNat ∨ 2 ^ s.config.pcWidth.bits ≤ s.pc.toNat + 4 then some (.pcWrap s.pc)
  else none

/-- R94: the refusal of a word the decoder rejects. -/
def refusalOf : Reject → Refusal
  | .notInScope iw => .notInScope iw
  | .reservedBitSet iw => .reservedBitSet iw

/-- The instruction at the pc: `iw = MemRead(pc, 4)`, decoded by R56.  DEDUCED (log 7): a fetch whose bytes are not
admitted is `MemFault(pc)` (R7, R32). -/
def fetch (s : State) : Host.Outcome Instr Fault Refusal :=
  match pcRefusal s with
  | some r => .refused r
  | none =>
    match memRead s (fetchAddr s) 4 with
    | none => .fault (.memFault (fetchAddr s))
    | some iw =>
      match decode iw with
      | .ok i => .next i
      | .error why => .refused (refusalOf why)

/-- The configuration with the access of 4 bytes at `addr` admitted, and no other that was not: unchanged where it is. -/
def admitWord (c : Config) (addr : Addr) : Config :=
  if admits c addr 4 then c else { c with admitted := .accesses 4 addr.toNat 1 1 :: c.admitted }

/-- The word `iw` placed at the pc, in admitted memory (R35, R111). -/
def placeWord (s : State) (iw : InsnWord) : State :=
  { s with mem := s.mem.writeBE (fetchAddr s).toNat 4 iw, config := admitWord s.config (fetchAddr s) }

end Sys2Proof.Machine
end

