-- ==== Sys2Proof/Machine/Step.lean ====
section
/-! DEFINITION. One step (00_scope.md R8): fetch the word at the pc, decode it, perform the
instruction's rule.  Nothing else happens between or during steps (R96). -/

namespace Sys2Proof.Machine

/-- R8: next state, fault or refusal. -/
def step (s : State) : Host.Outcome State Fault Refusal :=
  match fetch s with
  | .next i => exec i s
  | .fault f => .fault f
  | .refused r => .refused r

/-- `s` with the instruction of bits `w` (as spec/opcode_table.json numbers them) stored at the pc.  A program is loaded
from outside the machine, as part of the launch state (R24, R110; log 8). -/
def State.withFetchWord (s : State) (nbits w : Nat) : State := placeWord s (tableWord nbits w)

end Sys2Proof.Machine
end

