-- ==== Sys2Proof/WellFormed.lean ====
section
/-! DEFINITION. Which instructions are well formed.  The ranges of the operand fields are carried
by the types of `Instr`; the one condition left is R58: an update form names a base register other than r0.
An ill-formed instruction still decodes and encodes (R56); what it does is INVALID_FORM_POLICY's. -/

namespace Sys2Proof

/-- R58: "`lfdu` with RA = 0 and `lfdux` with RA = 0 are invalid forms."  R59: nothing else is one. -/
def Instr.isInvalidForm : Instr → Bool
  | .lfd _ _ _ => false
  | .lfdu _ ra _ => ra == 0
  | .lfdux _ ra _ => ra == 0
  | .lfdx _ _ _ => false

/-- An instruction that is not an invalid form. -/
def Instr.wellFormed (i : Instr) : Bool := !i.isInvalidForm

end Sys2Proof
end

