-- ==== Sys2Proof/Safety.lean ====
section
/-! DEFINITION. What claims are stated in: the invariant of a launched machine, when an instruction
can complete (70_reset_and_hazards.md R111), and a run that records why it stopped and ends at `end_pc`
(R8, R94, R98, R117). -/

namespace Sys2Proof.Machine

/-- What a launch state has and every step keeps: the pc is a multiple of 4 (R17, R37) and fits PC_BITS (R17), and memory
is in its canonical form. -/
abbrev State.Inv (s : State) : Prop :=
  s.pc.toNat % 4 = 0 ∧ s.pc.toNat < 2 ^ s.config.pcWidth.bits ∧ s.mem.wf = true

/-- The policy lets the instruction run: it is no invalid form, or the policy is `snapshot` (R58). -/
abbrev FormRuns (i : Instr) (s : State) : Prop :=
  i.isInvalidForm = false ∨ s.config.invalidForm = .snapshot

/-- What must hold for an instruction to complete (R111, R77): the unit is enabled, the form runs, and the 8 bytes at its
effective address are admitted. -/
abbrev Ready (i : Instr) (s : State) : Prop :=
  s.msrFp = true ∧ FormRuns i s ∧ admits s.config (eaOf i s) 8 = true

/-- The eight bytes from address `a` on as R34 writes them, `Mem[a] ++ Mem[a+1] ++ … ++ Mem[a+7]`. -/
def doubleAt (m : Memory) (a : Nat) : Doubleword :=
  m.read a ++ m.read (a + 1) ++ m.read (a + 2) ++ m.read (a + 3) ++
    m.read (a + 4) ++ m.read (a + 5) ++ m.read (a + 6) ++ m.read (a + 7)

/-- An access of `n` bytes at address `a` reaches memory: `Admit(a, n)` holds and the bytes do not pass `0xFFFFFFFF`
(R32). -/
abbrev IsMemory (s : State) (a n : Nat) : Prop := a + n ≤ 2 ^ 32 ∧ admitPredicate s.config a n = true

/-- The full result of a non-update form: it completes, FRT holds the doubleword at `ea`, the pc is 4 higher (R16; the last
word, where R17 lets no step come, apart), and nothing else changes. -/
def LoadsInto (s : State) (frt : FprNum) (ea : Addr) (e : Exec) : Prop :=
  ∃ t, e = .next t ∧ t = { s with fpr := s.fpr.set frt.val (doubleAt s.mem ea.toNat), pc := t.pc } ∧
    (s.pc.toNat + 4 < 2 ^ s.config.pcWidth.bits → t.pc.toNat = s.pc.toNat + 4)

/-- The full result of an update form: as `LoadsInto`, and RA holds `ea` zero-extended. -/
def LoadsAndUpdates (s : State) (frt : FprNum) (ra : GprNum) (ea : Addr) (e : Exec) : Prop :=
  ∃ t, e = .next t ∧
    t = { s with fpr := s.fpr.set frt.val (doubleAt s.mem ea.toNat),
                 gpr := s.gpr.set ra.val (BitVec.ofNat 64 ea.toNat),
                 pc := t.pc } ∧
    (s.pc.toNat + 4 < 2 ^ s.config.pcWidth.bits → t.pc.toNat = s.pc.toNat + 4)

/-- The general registers an instruction reads (R12). -/
def readsOf : Instr → List GprNum
  | .lfd _ ra _ => if ra = 0 then [] else [ra]
  | .lfdu _ ra _ => [ra]
  | .lfdux _ ra rb => [ra, rb]
  | .lfdx _ ra rb => if ra = 0 then [rb] else [ra, rb]

/-- Two outcomes that answer alike, with `R` between their next states. -/
def SameOutcome (R : State → State → Prop) : Exec → Exec → Prop
  | .next t, .next t' => R t t'
  | .fault f, .fault f' => f = f'
  | .refused r, .refused r' => r = r'
  | _, _ => False

/-- Two states that differ at most in the upper 32 bits of their general registers (R75). -/
def SameLowHalves (s s' : State) : Prop :=
  s' = { s with gpr := s'.gpr } ∧ ∀ r : GprNum, (readGpr s r).extractLsb' 0 32 = (readGpr s' r).extractLsb' 0 32

/-- `n` steps from a state, stopping at the first fault or refusal. -/
def runSteps : Nat → State → Exec
  | 0, s => .next s
  | n + 1, s =>
    match step s with
    | .next t => runSteps n t
    | .fault f => .fault f
    | .refused r => .refused r

/-- The event that ended a run abnormally. -/
inductive Stop where
  | fault (f : Fault)
  | refusal (r : Refusal)
deriving DecidableEq, Repr

/-- A run so far: the state it has reached and, once it has stopped abnormally, why.  "the state is left as it was before
the step and the fault is recorded" (R8); a refusal "is kept for the rest of the run" (R94). -/
@[ext]
structure Run where
  state : State
  stop : Option Stop
deriving DecidableEq, Repr

/-- A run at its launch state (R110). -/
def Run.launch (s : State) : Run := { state := s, stop := none }

/-- The run is over and final: `pc = end_pc` with nothing recorded (R117). -/
abbrev Run.Final (endPc : PcWord) (r : Run) : Prop := r.stop = none ∧ r.state.pc = endPc

/-- One step of a run with end address `end_pc` (R117): no fetch at `end_pc`, and none after a fault or a refusal. -/
def Run.advance (endPc : PcWord) (r : Run) : Run :=
  match r.stop with
  | some _ => r
  | none =>
    if r.state.pc = endPc then r
    else
      match step r.state with
      | .next s => { state := s, stop := none }
      | .fault f => { r with stop := some (.fault f) }
      | .refused why => { r with stop := some (.refusal why) }

/-- `n` steps of a run. -/
def Run.advances (endPc : PcWord) : Nat → Run → Run
  | 0, r => r
  | n + 1, r => Run.advances endPc n (Run.advance endPc r)

end Sys2Proof.Machine
end

