-- ==== Sys2Proof/Certificates/Slice0/Obligations.lean ====
section
/-! DEFINITION. The statements for the provers: what the numbered rules of spec/ say, over every
state and every operand.  A statement over every state is a statement over every configuration (PC_BITS, `Admit`,
INVALID_FORM_POLICY), since a state carries its own. -/

open Sys2Proof Sys2Proof.Machine

/-! ### Encoding -/

/-- The encoder drops no bit the decoder reads, at every value of every operand, the invalid forms of R58 included. -/
def Obligations.DecodeOfEncodeIsTheInstruction : Prop :=
  ∀ i : Instr, decode (encode i) = .ok i

/-- An instruction has one word: a word that decodes is the word of its instruction, so the decoder drops no bit. -/
def Obligations.EncodeOfDecodeIsTheWord : Prop :=
  ∀ (iw : InsnWord) (i : Instr), decode iw = .ok i → encode i = iw

/-- R56, with the fields taken from the word's number by division: `iw[31:26]` is `w / 2^26`, `iw[25:21]` is
`w / 2^21 % 32`, and so on (R6). -/
def Obligations.DecodeIsTheProcedureOfR56 : Prop :=
  ∀ iw : InsnWord,
    let w := iw.toNat
    let frt : FprNum := Fin.ofNat 32 (w / 2 ^ 21)
    let ra : GprNum := Fin.ofNat 32 (w / 2 ^ 16)
    let rb : GprNum := Fin.ofNat 32 (w / 2 ^ 11)
    let d : BitVec 16 := BitVec.ofNat 16 w
    decode iw =
      if w / 2 ^ 26 = 50 then .ok (.lfd frt ra d)
      else if w / 2 ^ 26 = 51 then .ok (.lfdu frt ra d)
      else if w / 2 ^ 26 = 31 ∧ w / 2 % 2 ^ 10 = 599 then
        (if w % 2 = 0 then .ok (.lfdx frt ra rb) else .error (.reservedBitSet iw))
      else if w / 2 ^ 26 = 31 ∧ w / 2 % 2 ^ 10 = 631 then
        (if w % 2 = 0 then .ok (.lfdux frt ra rb) else .error (.reservedBitSet iw))
      else .error (.notInScope iw)

/-- The opcode map: a word is the instruction of a row exactly when `iw AND mask = match`, with the matches and masks
of the four rows. -/
def Obligations.MatchAndMaskSelectTheRow : Prop :=
  ∀ iw : InsnWord,
    (iw &&& 0xFC000000 = 0xC8000000 ↔ ∃ frt ra d, decode iw = .ok (.lfd frt ra d)) ∧
    (iw &&& 0xFC000000 = 0xCC000000 ↔ ∃ frt ra d, decode iw = .ok (.lfdu frt ra d)) ∧
    (iw &&& 0xFC0007FF = 0x7C0004AE ↔ ∃ frt ra rb, decode iw = .ok (.lfdx frt ra rb)) ∧
    (iw &&& 0xFC0007FF = 0x7C0004EE ↔ ∃ frt ra rb, decode iw = .ok (.lfdux frt ra rb))

/-- The byte decoder reads the first word big-endian and hands back the bytes after it, and the decoder read through
the opcode table's bit numbers is the same decoder. -/
def Obligations.BytesOfAnInstructionDecodeToIt : Prop :=
  ∀ (i : Instr) (rest : List Byte),
    decodeBytes (wordBytes (encode i) ++ rest) = .ok (i, rest) ∧ decodeTableWord 32 (encode i).toNat = some i

/-- Words of the spec's decoding table (95_test_vectors.md 2.2), each family and each rejection. -/
def Obligations.SpecWordsDecodeAsListed : Prop :=
  decode 0xC8230008 = .ok (.lfd 1 3 0x0008) ∧ decode 0xCBE1FFF8 = .ok (.lfd 31 1 0xFFF8) ∧
  decode 0xCC240008 = .ok (.lfdu 1 4 0x0008) ∧ decode 0x7CC534AE = .ok (.lfdx 6 5 6) ∧
  decode 0x7D2A5CEE = .ok (.lfdux 9 10 11) ∧ decode 0x7C0004AF = .error (.reservedBitSet 0x7C0004AF) ∧
  decode 0xC7FFFFFF = .error (.notInScope 0xC7FFFFFF)

/-- R57: a fetched word with OPCD = 31, XO = 599 or 631 and `iw[0] = 1` is refused, `ReservedBitSet(iw)`. -/
def Obligations.ReservedBitIsRefused : Prop :=
  ∀ (s : State) (iw : InsnWord), pcRefusal s = none → memRead s (fetchAddr s) 4 = some iw →
    iw.toNat / 2 ^ 26 = 31 → iw.toNat / 2 % 2 ^ 10 = 599 ∨ iw.toNat / 2 % 2 ^ 10 = 631 → iw.toNat % 2 = 1 →
    step s = .refused (.reservedBitSet iw)

/-- R60: a fetched word with another OPCD, or with OPCD = 31 and another XO, is refused, `NotInScope(iw)`. -/
def Obligations.WordOutOfScopeIsRefused : Prop :=
  ∀ (s : State) (iw : InsnWord), pcRefusal s = none → memRead s (fetchAddr s) 4 = some iw →
    iw.toNat / 2 ^ 26 ≠ 50 → iw.toNat / 2 ^ 26 ≠ 51 →
    ¬ (iw.toNat / 2 ^ 26 = 31 ∧ (iw.toNat / 2 % 2 ^ 10 = 599 ∨ iw.toNat / 2 % 2 ^ 10 = 631)) →
    step s = .refused (.notInScope iw)

/-- R54: the displacement of a decoded word is `iw[15:0]`, used as its sign extension to 64 bits, unscaled. -/
def Obligations.DisplacementIsSignExtended : Prop :=
  ∀ (iw : InsnWord) (frt : FprNum) (ra : GprNum) (d : BitVec 16),
    decode iw = .ok (.lfd frt ra d) ∨ decode iw = .ok (.lfdu frt ra d) →
      d.toNat = iw.toNat % 2 ^ 16 ∧
      (displacement d).extractLsb' 0 16 = d ∧
      (∀ k, 16 ≤ k → k < 64 → (displacement d).getLsbD k = iw.getLsbD 15) ∧
      (displacement d).toInt = d.toInt ∧ -32768 ≤ d.toInt ∧ d.toInt ≤ 32767

/-! ### Memory -/

/-- R34: byte `k` of a read of `n` bytes is `Mem[a+k]`, the first the most significant; a read of 8 is the
concatenation the rule writes; a narrower read at the same address, where it is admitted too, sees the same bytes. -/
def Obligations.MemReadIsBigEndian : Prop :=
  ∀ (s : State) (a : Addr) (n : Nat) (v : BitVec (8 * n)), memRead s a n = some v →
    (∀ k, k < n → v.extractLsb' (8 * (n - 1 - k)) 8 = s.mem.read (a.toNat + k)) ∧
    (∀ w : Doubleword, memRead s a 8 = some w → w = doubleAt s.mem a.toNat) ∧
    (∀ m (w : BitVec (8 * m)), m ≤ n → memRead s a m = some w → w = v.extractLsb' (8 * (n - m)) (8 * m))

/-- R32: `MemRead` is defined exactly where `Admit` holds, whatever predicate it is, and the bytes do not pass `0xFFFFFFFF`;
a load elsewhere does not happen: `MemFault(EA)`, and the run is left in the state before the step. -/
def Obligations.LoadOutsideMemoryFaults : Prop :=
  (∀ (s : State) (a : Addr) (n : Nat), (memRead s a n).isSome = true ↔ IsMemory s a.toNat n) ∧
  ∀ (i : Instr) (s : State), s.msrFp = true → FormRuns i s → ¬ IsMemory s (eaOf i s).toNat 8 →
    exec i s = .fault (.memFault (eaOf i s)) ∧
    ∀ endPc, fetch s = .next i → s.pc ≠ endPc →
      Run.advance endPc (Run.launch s) = { state := s, stop := some (.fault (.memFault (eaOf i s))) }

/-- MemWrite and MemRead match: the value written is the value read, and no byte outside it changes. -/
def Obligations.MemReadAfterMemWrite : Prop :=
  ∀ (s t : State) (a : Addr) (n : Nat) (v : BitVec (8 * n)), s.mem.wf = true → memWrite s a n v = some t →
    memRead t a n = some v ∧ ∀ k, k < a.toNat ∨ a.toNat + n ≤ k → t.mem.read k = s.mem.read k

/-! ### The effective address -/

/-- R75: `EA = (base[31:0] + offset[31:0]) mod 2^32`, so the upper halves never matter; and `lfd f3, -8(0)` reads at
`0xFFFFFFF8`. -/
def Obligations.EffectiveAddressIsTheLowSum : Prop :=
  (∀ base offset : Doubleword,
    (effectiveAddress base offset).toNat = (base.toNat % 2 ^ 32 + offset.toNat % 2 ^ 32) % 2 ^ 32) ∧
  (∀ base base' offset offset' : Doubleword, base.extractLsb' 0 32 = base'.extractLsb' 0 32 →
    offset.extractLsb' 0 32 = offset'.extractLsb' 0 32 →
    effectiveAddress base offset = effectiveAddress base' offset') ∧
  (∀ s : State, eaOf (.lfd 3 0 (-8)) s = 0xFFFFFFF8)

/-- R11: RA = 0 is the literal zero in `lfd` and `lfdx` and the register r0 in `lfdu` and `lfdux`; RB = 0 is always r0;
`lfd FT, 0(0)` loads from absolute address 0. -/
def Obligations.RegisterZeroRole : Prop :=
  ∀ (s : State) (frt : FprNum) (ra rb : GprNum) (d : BitVec 16),
    eaOf (.lfd frt 0 d) s = (d.signExtend 64).extractLsb' 0 32 ∧
    (ra ≠ 0 → eaOf (.lfd frt ra d) s = (readGpr s ra + d.signExtend 64).extractLsb' 0 32) ∧
    eaOf (.lfdx frt 0 rb) s = (readGpr s rb).extractLsb' 0 32 ∧
    (ra ≠ 0 → eaOf (.lfdx frt ra rb) s = (readGpr s ra + readGpr s rb).extractLsb' 0 32) ∧
    eaOf (.lfdu frt ra d) s = (readGpr s ra + d.signExtend 64).extractLsb' 0 32 ∧
    eaOf (.lfdux frt ra rb) s = (readGpr s ra + readGpr s rb).extractLsb' 0 32 ∧
    (s.msrFp = true → IsMemory s 0 8 → LoadsInto s frt 0 (exec (.lfd frt 0 0) s))

/-- 95_test_vectors.md 2.7 (1), over whole runs: two states that differ only in the upper halves of general registers
run alike, step for step, to states that differ only there. -/
def Obligations.UpperHalvesNeverMatter : Prop :=
  ∀ (n : Nat) (s s' : State), SameLowHalves s s' →
    SameOutcome SameLowHalves (runSteps n s) (runSteps n s')

/-! ### The four instructions: each completes, with its result -/

/-- `lfd`: with the unit enabled and the 8 bytes at `(RA|0) + d` in memory, the instruction completes and changes FRT
and the pc.  The pc of the last word wraps
modulo 2^PC_BITS: the model's choice (log 9), which no step reaches. -/
def Obligations.LfdLoadsTheDoubleword : Prop :=
  ∀ (frt : FprNum) (ra : GprNum) (d : BitVec 16) (s : State) (ea : Addr), s.msrFp = true →
    (ea.toNat : Int) = ((if ra = 0 then 0 else (readGpr s ra).toNat : Nat) + d.toInt) % 2 ^ 32 →
    IsMemory s ea.toNat 8 →
    exec (.lfd frt ra d) s =
      .next { s with fpr := s.fpr.set frt.val (doubleAt s.mem ea.toNat), pc := nextPc s.config s.pc }

/-- `lfdu`: as `lfd` with plain RA, and RA receives the address read, zero-extended.  RA = 0 runs so under the policy
`snapshot`.  The pc of the last word wraps
modulo 2^PC_BITS: the model's choice (log 9), which no step reaches. -/
def Obligations.LfduLoadsAndUpdates : Prop :=
  ∀ (frt : FprNum) (ra : GprNum) (d : BitVec 16) (s : State) (ea : Addr), s.msrFp = true →
    ra ≠ 0 ∨ s.config.invalidForm = .snapshot →
    (ea.toNat : Int) = ((readGpr s ra).toNat + d.toInt) % 2 ^ 32 → IsMemory s ea.toNat 8 →
    exec (.lfdu frt ra d) s =
      .next { s with fpr := s.fpr.set frt.val (doubleAt s.mem ea.toNat),
                     gpr := s.gpr.set ra.val (BitVec.ofNat 64 ea.toNat),
                     pc := nextPc s.config s.pc }

/-- `lfdux`: the sum of RA and RB as they were before the instruction (RA = RB included), and RA receives the address
read.  The pc of the last word wraps
modulo 2^PC_BITS: the model's choice (log 9), which no step reaches. -/
def Obligations.LfduxLoadsAndUpdates : Prop :=
  ∀ (frt : FprNum) (ra rb : GprNum) (s : State) (ea : Addr), s.msrFp = true →
    ra ≠ 0 ∨ s.config.invalidForm = .snapshot →
    ea.toNat = ((readGpr s ra).toNat + (readGpr s rb).toNat) % 2 ^ 32 → IsMemory s ea.toNat 8 →
    exec (.lfdux frt ra rb) s =
      .next { s with fpr := s.fpr.set frt.val (doubleAt s.mem ea.toNat),
                     gpr := s.gpr.set ra.val (BitVec.ofNat 64 ea.toNat),
                     pc := nextPc s.config s.pc }

/-- `lfdx`: the sum of (RA|0) and RB; no general register changes.  The pc of the last word wraps
modulo 2^PC_BITS: the model's choice (log 9), which no step reaches. -/
def Obligations.LfdxLoadsTheDoubleword : Prop :=
  ∀ (frt : FprNum) (ra rb : GprNum) (s : State) (ea : Addr), s.msrFp = true →
    ea.toNat = ((if ra = 0 then 0 else (readGpr s ra).toNat) + (readGpr s rb).toNat) % 2 ^ 32 →
    IsMemory s ea.toNat 8 →
    exec (.lfdx frt ra rb) s =
      .next { s with fpr := s.fpr.set frt.val (doubleAt s.mem ea.toNat), pc := nextPc s.config s.pc }

/-- What must hold is exactly enough: an instruction completes if and only if the unit is enabled, its form runs and its
8 bytes are memory.  That a register nobody has written may be read, so that R111 (2) and R95 ask nothing here, is the
model's choice (log 2, DESIGN CHOICE). -/
def Obligations.InstructionCompletesExactlyWhenReady : Prop :=
  ∀ (i : Instr) (s : State),
    (∃ t, exec i s = .next t) ↔ s.msrFp = true ∧ FormRuns i s ∧ IsMemory s (eaOf i s).toNat 8

/-- R76: every 64-bit pattern the 8 bytes spell is in FRT afterwards, bit for bit, and FPSCR is as it was. -/
def Obligations.EveryPatternIsLoadedBitForBit : Prop :=
  ∀ (i : Instr) (s : State) (p : Doubleword), Ready i s →
    (∀ k, k < 8 → s.mem.read ((eaOf i s).toNat + k) = p.extractLsb' (56 - 8 * k) 8) →
    ∃ t, exec i s = .next t ∧ readFpr t (destOf i) = p ∧ t.fpscr = s.fpscr

/-- R36, R91: no alignment is needed and no alignment exception exists: whatever the address is, an admitted load
completes with its 8 bytes; and the only faults are the disabled unit's (R90) and the missing memory's (R93).  That the
spec's third fault, `UnwrittenRegister` (R95), is not among them is the model's choice (log 2, DESIGN CHOICE). -/
def Obligations.NoAlignmentException : Prop :=
  (∀ (i : Instr) (s : State), s.msrFp = true → FormRuns i s → IsMemory s (eaOf i s).toNat 8 →
    ∃ t, exec i s = .next t ∧ readFpr t (destOf i) = doubleAt s.mem (eaOf i s).toNat) ∧
  (∀ (i : Instr) (s : State) (f : Fault), exec i s = .fault f →
    (f = .fpUnavailable ∧ s.msrFp = false) ∨
    (f = .memFault (eaOf i s) ∧ ¬ IsMemory s (eaOf i s).toNat 8))

/-- 95_test_vectors.md 2.7 (2): after an update form RA is the address that was read, its upper half 0. -/
def Obligations.UpdatedRegisterIsTheAddressRead : Prop :=
  ∀ (i : Instr) (s t : State) (ra : GprNum), exec i s = .next t → updatedOf i = some ra →
    (readGpr t ra).extractLsb' 32 32 = 0 ∧ (readGpr t ra).extractLsb' 0 32 = eaOf i s ∧
    readFpr t (destOf i) = doubleAt s.mem (readGpr t ra).toNat

/-- R112 and 95_test_vectors.md 2.7 (3): the next instruction sees the updated RA, whichever of the four it is.  After an
update form that read at `a`, the register RA is worth `a` as the base of `lfdu`, `lfd`, `lfdux` and `lfdx` (a literal
zero in `lfd` and `lfdx` where RA = 0, R11) and as the index of `lfdux` and `lfdx`. -/
def Obligations.NextInstructionSeesTheUpdatedRegister : Prop :=
  ∀ (i : Instr) (s t : State) (ra : GprNum), exec i s = .next t → updatedOf i = some ra →
    ∀ (frt : FprNum) (rb : GprNum) (d : BitVec 16),
      let a := (eaOf i s).toNat
      let a0 := if ra = 0 then 0 else a
      let b := if rb = ra then a else (readGpr s rb).toNat
      let b0 := if rb = 0 then 0 else b
      ((eaOf (.lfdu frt ra d) t).toNat : Int) = ((a : Int) + d.toInt) % 2 ^ 32 ∧
      ((eaOf (.lfd frt ra d) t).toNat : Int) = ((a0 : Int) + d.toInt) % 2 ^ 32 ∧
      (eaOf (.lfdux frt ra rb) t).toNat = (a + b) % 2 ^ 32 ∧
      (eaOf (.lfdux frt rb ra) t).toNat = (b + a) % 2 ^ 32 ∧
      (eaOf (.lfdx frt ra rb) t).toNat = (a0 + b) % 2 ^ 32 ∧
      (eaOf (.lfdx frt rb ra) t).toNat = (b0 + a) % 2 ^ 32

/-- R58: the two update forms with RA = 0.  Under `refuse` the step is refused with the word; under `snapshot` R72 or R73
is performed with `GPR[0]` as the base and as the register written. -/
def Obligations.InvalidFormFollowsThePolicy : Prop :=
  ∀ (s : State) (frt : FprNum) (rb : GprNum) (d : BitVec 16), s.msrFp = true →
    (s.config.invalidForm = .refuse →
      exec (.lfdu frt 0 d) s = .refused (.invalidForm (encode (.lfdu frt 0 d))) ∧
      exec (.lfdux frt 0 rb) s = .refused (.invalidForm (encode (.lfdux frt 0 rb)))) ∧
    (s.config.invalidForm = .snapshot → ∀ ea : Addr, IsMemory s ea.toNat 8 →
      (ea = (readGpr s 0 + d.signExtend 64).extractLsb' 0 32 →
        ∃ t, exec (.lfdu frt 0 d) s = .next t ∧ readFpr t frt = doubleAt s.mem ea.toNat ∧
          readGpr t 0 = ea.setWidth 64) ∧
      (ea = (readGpr s 0 + readGpr s rb).extractLsb' 0 32 →
        ∃ t, exec (.lfdux frt 0 rb) s = .next t ∧ readFpr t frt = doubleAt s.mem ea.toNat ∧
          readGpr t 0 = ea.setWidth 64))

/-- R59: FRT, RA and RB may be equal as numbers.  For FRT = RA, FRT = RB, RA = RB (the address is then twice the
register), all three equal, and RB = 0 (plain `GPR[0]`), each form that has the two fields completes with its full
result; RA = 0 is the literal zero in `lfd` and `lfdx` (R11) and the policy's in `lfdu` and `lfdux` (R58). -/
def Obligations.EqualRegisterNumbersAreOrdinary : Prop :=
  ∀ (s : State) (r k : Fin 32) (d : BitVec 16) (ea : Addr), s.msrFp = true → IsMemory s ea.toNat 8 →
    let x := (readGpr s r).toNat
    let x0 := if r = 0 then 0 else x
    let y := (readGpr s k).toNat
    let runs := r ≠ 0 ∨ s.config.invalidForm = .snapshot
    -- FRT = RA
    ((ea.toNat : Int) = ((x0 : Int) + d.toInt) % 2 ^ 32 → LoadsInto s r ea (exec (.lfd r r d) s)) ∧
    (runs → (ea.toNat : Int) = ((x : Int) + d.toInt) % 2 ^ 32 → LoadsAndUpdates s r r ea (exec (.lfdu r r d) s)) ∧
    (runs → ea.toNat = (x + y) % 2 ^ 32 → LoadsAndUpdates s r r ea (exec (.lfdux r r k) s)) ∧
    (ea.toNat = (x0 + y) % 2 ^ 32 → LoadsInto s r ea (exec (.lfdx r r k) s)) ∧
    -- FRT = RB
    (runs → ea.toNat = (x + y) % 2 ^ 32 → LoadsAndUpdates s k r ea (exec (.lfdux k r k) s)) ∧
    (ea.toNat = (x0 + y) % 2 ^ 32 → LoadsInto s k ea (exec (.lfdx k r k) s)) ∧
    -- RA = RB
    (runs → ea.toNat = 2 * x % 2 ^ 32 → LoadsAndUpdates s k r ea (exec (.lfdux k r r) s)) ∧
    (r ≠ 0 → ea.toNat = 2 * x % 2 ^ 32 → LoadsInto s k ea (exec (.lfdx k r r) s)) ∧
    -- RB = 0
    (runs → ea.toNat = (x + (readGpr s 0).toNat) % 2 ^ 32 → LoadsAndUpdates s k r ea (exec (.lfdux k r 0) s)) ∧
    (ea.toNat = (x0 + (readGpr s 0).toNat) % 2 ^ 32 → LoadsInto s k ea (exec (.lfdx k r 0) s))

/-! ### Frames -/

/-- R23, the frame of all four: every general register but the updated RA (`updatedOf`: RA of `lfdu` and `lfdux`, none of
`lfd` and `lfdx`), every floating-point register but FRT, MSR.FP, CR, XER, FPSCR, every vector register, the
configuration and every byte of memory are unchanged; no form stores. -/
def Obligations.FrameOfTheFamily : Prop :=
  ∀ (i : Instr) (s t : State), exec i s = .next t →
    (∀ r, updatedOf i ≠ some r → readGpr t r = readGpr s r) ∧
    (∀ r, r ≠ destOf i → readFpr t r = readFpr s r) ∧
    t.msrFp = s.msrFp ∧ t.cr = s.cr ∧ t.xer = s.xer ∧ t.fpscr = s.fpscr ∧
    (∀ k, readVr t k = readVr s k) ∧ t.config = s.config ∧
    (∀ a, t.mem.read a = s.mem.read a)

/-- R12: an instruction's outcome depends only on the general registers it reads (`readsOf`), and the only one written is
RA of the update forms, which receives the effective address zero-extended. -/
def Obligations.OnlyListedRegistersAreReadAndWritten : Prop :=
  ∀ (i : Instr) (s : State),
    (∀ g : Vector Doubleword 32, (∀ r ∈ readsOf i, g[r.val] = s.gpr[r.val]) →
      SameOutcome (fun t t' => t' = { t with gpr := t'.gpr } ∧ ∀ r, updatedOf i = some r → readGpr t' r = readGpr t r)
        (exec i s) (exec i { s with gpr := g })) ∧
    (∀ t, exec i s = .next t → ∀ r, readGpr t r =
      if updatedOf i = some r then BitVec.ofNat 64 (eaOf i s).toNat else readGpr s r)

/-- R15: FRT is always written, no other floating-point register is, and none is read: with any other floating-point file
the outcome is the same but for that file. -/
def Obligations.OneFloatingPointRegisterIsWrittenNoneRead : Prop :=
  ∀ (i : Instr) (s : State),
    (∀ t, exec i s = .next t → ∀ r, readFpr t r =
      if r = destOf i then doubleAt s.mem (eaOf i s).toNat else readFpr s r) ∧
    (∀ f : Vector Doubleword 32,
      SameOutcome (fun t t' => t' = { t with fpr := t'.fpr } ∧ readFpr t' (destOf i) = readFpr t (destOf i))
        (exec i s) (exec i { s with fpr := f }))

/-- R16: the pc is the address of the instruction executed; each instruction leaves it 4 higher, none reads it, and a step
that faults or is refused leaves it.  That the sum is taken modulo 2^PC_BITS at the last word, where R17 lets no step come,
is the model's choice (log 9, DESIGN CHOICE). -/
def Obligations.ProgramCounterAdvancesByFour : Prop :=
  (∀ (s : State) (i : Instr), fetch s = .next i →
    ∃ iw, memRead s (fetchAddr s) 4 = some iw ∧ (fetchAddr s).toNat = s.pc.toNat ∧ decode iw = .ok i) ∧
  (∀ (i : Instr) (s t : State), exec i s = .next t →
    t.pc.toNat = (s.pc.toNat + 4) % 2 ^ s.config.pcWidth.bits) ∧
  (∀ (i : Instr) (s : State) (p : PcWord),
    SameOutcome (fun t t' => t' = { t with pc := t'.pc }) (exec i s) (exec i { s with pc := p })) ∧
  (∀ (s : State) (endPc : PcWord), (∀ t, step s ≠ .next t) →
    (Run.advance endPc (Run.launch s)).state.pc = s.pc)

/-! ### Exceptions, refusals, the program counter's edges -/

/-- R90: with `MSR.FP = 0` every instruction of the family raises Floating-Point Unavailable, and the run is left in the
state before the step, with the pc at the instruction. -/
def Obligations.DisabledUnitRaisesFpUnavailable : Prop :=
  ∀ (i : Instr) (s : State), s.msrFp = false →
    exec i s = .fault .fpUnavailable ∧
    ∀ endPc, fetch s = .next i → s.pc ≠ endPc →
      Run.advance endPc (Run.launch s) = { state := s, stop := some (.fault .fpUnavailable) }

/-- R94: a step is refused only for one of the five listed reasons, each with its cause and its recorded value; a
refusal is kept for the rest of the run, which is never final. -/
def Obligations.RefusalsAreTheListedOnes : Prop :=
  (∀ (s : State) (r : Refusal), step s = .refused r →
    (r = .pcMisaligned s.pc ∧ s.pc.toNat % 4 ≠ 0) ∨
    (r = .pcWrap s.pc ∧ (2 ^ 32 ≤ s.pc.toNat ∨ 2 ^ s.config.pcWidth.bits ≤ s.pc.toNat + 4)) ∨
    ∃ iw, memRead s (fetchAddr s) 4 = some iw ∧
      ((r = .notInScope iw ∧ ∀ i, decode iw ≠ .ok i) ∨
       (r = .reservedBitSet iw ∧ ∀ i, decode iw ≠ .ok i) ∨
       (r = .invalidForm iw ∧ s.config.invalidForm = .refuse ∧ ∃ i, decode iw = .ok i ∧ i.isInvalidForm = true))) ∧
  (∀ (endPc : PcWord) (n : Nat) (q : Run) (r : Refusal), q.stop = some (.refusal r) →
    Run.advances endPc n q = q ∧ ¬ (Run.advances endPc n q).Final endPc)

/-- The order of R97, as the model completes it: a step reports the first event that applies.  The model's own are:
`PcMisaligned` before `PcWrap`, which R97 puts in one item, and the reason `PcWrap` for an aligned pc above `0xFFFFFFFF`,
which R17 refuses "in the same way" (log 10, DEDUCED); the clause on a fetch outside memory (log 7, DEDUCED); and that no
register is unwritten (log 2, DESIGN CHOICE). -/
def Obligations.FirstEventIsReported : Prop :=
  ∀ s : State,
    (s.pc.toNat % 4 ≠ 0 → step s = .refused (.pcMisaligned s.pc)) ∧
    (s.pc.toNat % 4 = 0 → 2 ^ 32 ≤ s.pc.toNat ∨ 2 ^ s.config.pcWidth.bits ≤ s.pc.toNat + 4 →
      step s = .refused (.pcWrap s.pc)) ∧
    (s.pc.toNat % 4 = 0 → s.pc.toNat < 2 ^ 32 → s.pc.toNat + 4 < 2 ^ s.config.pcWidth.bits →
      (¬ IsMemory s s.pc.toNat 4 → step s = .fault (.memFault (BitVec.ofNat 32 s.pc.toNat))) ∧
      (∀ iw why, memRead s (fetchAddr s) 4 = some iw → decode iw = .error why → step s = .refused (refusalOf why)) ∧
      (∀ iw i, memRead s (fetchAddr s) 4 = some iw → decode iw = .ok i →
        (s.msrFp = false → step s = .fault .fpUnavailable) ∧
        (s.msrFp = true → i.isInvalidForm = true → s.config.invalidForm = .refuse →
          step s = .refused (.invalidForm iw)) ∧
        (s.msrFp = true → FormRuns i s → ¬ IsMemory s (eaOf i s).toNat 8 →
          step s = .fault (.memFault (eaOf i s)))))

/-- R17: an aligned pc stays aligned and within PC_BITS; a step at `2^PC_BITS - 4` is refused whole, and so is one at a
pc above `0xFFFFFFFF`, which R17 refuses "in the same way": that its reason too is `PcWrap` is the model's (log 10,
DEDUCED). -/
def Obligations.ProgramCounterNeverWraps : Prop :=
  (∀ s : State, s.pc.toNat % 4 = 0 →
    (s.pc.toNat = 2 ^ s.config.pcWidth.bits - 4 → step s = .refused (.pcWrap s.pc)) ∧
    (2 ^ 32 ≤ s.pc.toNat → step s = .refused (.pcWrap s.pc))) ∧
  (∀ s t : State, step s = .next t →
    t.pc.toNat = s.pc.toNat + 4 ∧ t.pc.toNat < 2 ^ s.config.pcWidth.bits ∧ t.pc.toNat % 4 = 0)

/-- R37: the pc is a multiple of 4 at every fetch that answers, and a pc that is not is refused. -/
def Obligations.FetchNeedsAnAlignedPc : Prop :=
  (∀ s : State, s.pc.toNat % 4 ≠ 0 → step s = .refused (.pcMisaligned s.pc)) ∧
  (∀ (n : Nat) (s t : State), runSteps (n + 1) s = .next t → s.pc.toNat % 4 = 0 ∧ t.pc.toNat % 4 = 0)

/-! ### Steps and runs -/

/-- A step runs the decoded instruction: where the four bytes at a fetchable pc decode to `i`, `step` is `exec i`. -/
def Obligations.StepRunsTheDecodedInstruction : Prop :=
  ∀ (s : State) (i : Instr), s.pc.toNat % 4 = 0 → s.pc.toNat + 4 < 2 ^ s.config.pcWidth.bits →
    IsMemory s s.pc.toNat 4 →
    decodeBytes [s.mem.read s.pc.toNat, s.mem.read (s.pc.toNat + 1), s.mem.read (s.pc.toNat + 2),
      s.mem.read (s.pc.toNat + 3)] = .ok (i, []) →
    step s = exec i s

/-- A word placed at a fetchable pc is the instruction the next step runs.  Placing it (the model's launch operation, log 8)
changes the four bytes and `Admit` alone: PC_BITS and INVALID_FORM_POLICY stay, and the accesses admitted afterwards are
those admitted before and the fetch of the word. -/
def Obligations.PlacedWordIsRunNext : Prop :=
  ∀ (s : State) (i : Instr), s.mem.wf = true → pcRefusal s = none →
    let p := s.withFetchWord 32 (encode i).toNat
    step p = exec i p ∧ p.mem.wf = true ∧ p = { s with mem := p.mem, config := p.config } ∧
      p.config = { s.config with admitted := p.config.admitted } ∧
      (∀ a n, admitPredicate p.config a n = true ↔
        admitPredicate s.config a n = true ∨ (a = s.pc.toNat ∧ n = 4)) ∧
      ∀ k, k < s.pc.toNat ∨ s.pc.toNat + 4 ≤ k → p.mem.read k = s.mem.read k

/-- The invariant: from every state that meets it, every step keeps it.  Alignment and width of the pc (R17, R37), the
canonical form of memory (the model's own). -/
def Obligations.StepKeepsInv : Prop :=
  ∀ s t : State, s.Inv → step s = .next t → t.Inv

/-- The reset state meets the invariant. -/
def Obligations.ResetMeetsInv : Prop := State.reset.Inv

/-- The parameters with a default in the spec stand at it after reset (D2, D11, D16). -/
def Obligations.ResetHoldsTheDefaults : Prop :=
  State.reset.msrFp = true ∧ State.reset.config.pcWidth.bits = 32 ∧ State.reset.config.invalidForm = .refuse

/-- Over a whole run memory, MSR.FP, the status registers, the vector registers and the configuration stay as launched, so
every fetch returns the launch memory's bytes. -/
def Obligations.RunKeepsMemoryAndStatus : Prop :=
  ∀ (n : Nat) (s t : State), runSteps n s = .next t →
    t.mem = s.mem ∧ t.msrFp = s.msrFp ∧ t.cr = s.cr ∧ t.xer = s.xer ∧ t.fpscr = s.fpscr ∧ t.vr = s.vr ∧
    t.config = s.config ∧ memRead t (fetchAddr t) 4 = memRead s (fetchAddr t) 4

/-- R41: after any number of steps an instruction that completes loads the LAUNCH memory's bytes at its address, computed
from the registers as every earlier step left them, and takes effect as one step. -/
def Obligations.EveryLoadReturnsLaunchMemory : Prop :=
  ∀ (n : Nat) (s t u : State) (i : Instr), runSteps n s = .next t → fetch t = .next i → exec i t = .next u →
    readFpr u (destOf i) = doubleAt s.mem (eaOf i t).toNat ∧ runSteps (n + 1) s = .next u

/-- R78: no instruction transfers control: after `n` steps the pc is `4 n` higher, without wrapping. -/
def Obligations.ControlFallsThrough : Prop :=
  ∀ (n : Nat) (s t : State), runSteps n s = .next t → t.pc.toNat = s.pc.toNat + 4 * n

/-- A stop is precise, a fault (R98) and a refusal (R77, R94) alike.  A run that has recorded a stop stands in the state its
complete earlier steps gave, the pc at the instruction that stopped, and that step alone gave the recorded event. -/
def Obligations.StopsArePrecise : Prop :=
  ∀ (endPc : PcWord) (n : Nat) (s : State) (x : Stop), (Run.advances endPc n (Run.launch s)).stop = some x →
    ∃ k u, k < n ∧ runSteps k s = .next u ∧ (Run.advances endPc n (Run.launch s)).state = u ∧
      u.pc.toNat = s.pc.toNat + 4 * k ∧
      ((∃ f, step u = .fault f ∧ x = .fault f) ∨ (∃ r, step u = .refused r ∧ x = .refusal r))

/-- R117: with `end_pc` n words above the launch pc (n > 0, `end_pc` a multiple of 4) a run is final after exactly n
steps and stays so, or it stops earlier at a fault or a refusal and is never final; it cannot loop.  No fetch happens
at `end_pc`. -/
def Obligations.RunEndsAfterExactlyItsWords : Prop :=
  ∀ (s : State) (endPc : PcWord) (n : Nat), 0 < n → endPc.toNat % 4 = 0 → endPc.toNat = s.pc.toNat + 4 * n →
    ((∀ m, (Run.advances endPc m (Run.launch s)).Final endPc ↔ n ≤ m) ∧
      ∀ m, n ≤ m → Run.advances endPc m (Run.launch s) = Run.advances endPc n (Run.launch s)) ∨
    ((Run.advances endPc n (Run.launch s)).stop ≠ none ∧
      ∀ m, ¬ (Run.advances endPc m (Run.launch s)).Final endPc)
end

