-- ==== Sys2Proof/Laws/Decode.lean ====
section
/-! SUPPORT. The fields of a word, and the fields of the words the encoder builds. -/

namespace Sys2Proof

@[simp] theorem regNum_regBits (r : Fin 32) : regNum (regBits r) = r :=
  Fin.ext (by simp only [regNum, regBits, BitVec.toNat_ofNat]; omega)

@[simp] theorem regBits_regNum (b : BitVec 5) : regBits (regNum b) = b := by
  apply BitVec.eq_of_toNat_eq
  simp only [regNum, regBits, BitVec.toNat_ofNat]
  omega

/-! ### Slices and concatenations as arithmetic -/

theorem toNat_slice {n : Nat} (x : BitVec n) (lo len : Nat) :
    (x.extractLsb' lo len).toNat = x.toNat / 2 ^ lo % 2 ^ len := by
  rw [BitVec.extractLsb'_toNat, Nat.shiftRight_eq_div_pow]

theorem toNat_concat {n m : Nat} (x : BitVec n) (y : BitVec m) :
    (x ++ y).toNat = x.toNat * 2 ^ m + y.toNat := by
  rw [BitVec.toNat_append, Nat.shiftLeft_eq, Nat.mul_comm, Nat.two_pow_add_eq_or_of_lt y.isLt]

theorem toNat_regBits (r : Fin 32) : (regBits r).toNat = r.val := by
  rw [regBits, BitVec.toNat_ofNat]; omega

theorem toNat_formD (opcd : BitVec 6) (frt ra : Fin 32) (d : BitVec 16) : (formD opcd frt ra d).toNat =
    opcd.toNat * 2 ^ 26 + frt.val * 2 ^ 21 + ra.val * 2 ^ 16 + d.toNat := by
  simp only [formD, toNat_concat, toNat_regBits]; omega

theorem toNat_formX (opcd : BitVec 6) (frt ra rb : Fin 32) (xo : BitVec 10) : (formX opcd frt ra rb xo).toNat =
    opcd.toNat * 2 ^ 26 + frt.val * 2 ^ 21 + ra.val * 2 ^ 16 + rb.val * 2 ^ 11 + xo.toNat * 2 := by
  simp only [formX, toNat_concat, toNat_regBits, BitVec.toNat_ofNat]; omega

/-! ### The fields of the encoder's words -/

theorem formD_fields (opcd : BitVec 6) (frt ra : Fin 32) (d : BitVec 16) :
    fieldOpcd (formD opcd frt ra d) = opcd ∧ regNum (fieldFrt (formD opcd frt ra d)) = frt ∧
      regNum (fieldRa (formD opcd frt ra d)) = ra ∧ fieldD (formD opcd frt ra d) = d := by
  refine ⟨BitVec.eq_of_toNat_eq ?_, Fin.ext ?_, Fin.ext ?_, BitVec.eq_of_toNat_eq ?_⟩ <;>
    simp only [fieldOpcd, fieldFrt, fieldRa, fieldD, regNum, toNat_slice, toNat_formD] <;> omega

theorem formX_fields (opcd : BitVec 6) (frt ra rb : Fin 32) (xo : BitVec 10) :
    fieldOpcd (formX opcd frt ra rb xo) = opcd ∧ regNum (fieldFrt (formX opcd frt ra rb xo)) = frt ∧
      regNum (fieldRa (formX opcd frt ra rb xo)) = ra ∧ regNum (fieldRb (formX opcd frt ra rb xo)) = rb ∧
      fieldXo (formX opcd frt ra rb xo) = xo ∧ fieldRc (formX opcd frt ra rb xo) = 0 := by
  refine ⟨BitVec.eq_of_toNat_eq ?_, Fin.ext ?_, Fin.ext ?_, Fin.ext ?_, BitVec.eq_of_toNat_eq ?_,
    BitVec.eq_of_toNat_eq ?_⟩ <;>
    simp only [fieldOpcd, fieldFrt, fieldRa, fieldRb, fieldXo, fieldRc, regNum, toNat_slice, toNat_formX,
      BitVec.ofNat_eq_ofNat, BitVec.toNat_ofNat] <;> omega

/-- A word that spells the fields of form D is the encoder's. -/
theorem formD_of_fields (iw : InsnWord) :
    formD (fieldOpcd iw) (regNum (fieldFrt iw)) (regNum (fieldRa iw)) (fieldD iw) = iw := by
  apply BitVec.eq_of_toNat_eq
  simp only [toNat_formD, fieldOpcd, fieldFrt, fieldRa, fieldD, regNum, toNat_slice]
  omega

/-- A word that spells the fields of form X with Rc = 0 is the encoder's. -/
theorem formX_of_fields {iw : InsnWord} (h : fieldRc iw = 0) :
    formX (fieldOpcd iw) (regNum (fieldFrt iw)) (regNum (fieldRa iw)) (regNum (fieldRb iw)) (fieldXo iw) = iw := by
  have h0 : iw.toNat % 2 = 0 := by
    have := congrArg BitVec.toNat h
    simpa [fieldRc, toNat_slice] using this
  apply BitVec.eq_of_toNat_eq
  simp only [toNat_formX, fieldOpcd, fieldFrt, fieldRa, fieldRb, fieldXo, regNum, toNat_slice]
  omega

/-- Four bytes of a word, put together again, are the word. -/
theorem wordOfBytes_wordBytes (w : InsnWord) :
    wordOfBytes (w.extractLsb' 24 8) (w.extractLsb' 16 8) (w.extractLsb' 8 8) (w.extractLsb' 0 8) = w := by
  apply BitVec.eq_of_toNat_eq
  simp only [wordOfBytes, toNat_concat, toNat_slice]
  omega

end Sys2Proof
end

