-- ==== Sys2Proof/Laws/State.lean ====
section
/-! SUPPORT. One lemma per field per update: no later proof unfolds a record update. -/

namespace Sys2Proof.Machine

/-! ### writeGpr -/
@[simp] theorem writeGpr_gpr (s : State) (r : GprNum) (v : Doubleword) :
    (writeGpr s r v).gpr = s.gpr.set r.val v := rfl
@[simp] theorem writeGpr_fpr (s : State) (r : GprNum) (v : Doubleword) : (writeGpr s r v).fpr = s.fpr := rfl
@[simp] theorem writeGpr_pc (s : State) (r : GprNum) (v : Doubleword) : (writeGpr s r v).pc = s.pc := rfl
@[simp] theorem writeGpr_msrFp (s : State) (r : GprNum) (v : Doubleword) : (writeGpr s r v).msrFp = s.msrFp := rfl
@[simp] theorem writeGpr_cr (s : State) (r : GprNum) (v : Doubleword) : (writeGpr s r v).cr = s.cr := rfl
@[simp] theorem writeGpr_xer (s : State) (r : GprNum) (v : Doubleword) : (writeGpr s r v).xer = s.xer := rfl
@[simp] theorem writeGpr_fpscr (s : State) (r : GprNum) (v : Doubleword) : (writeGpr s r v).fpscr = s.fpscr := rfl
@[simp] theorem writeGpr_vr (s : State) (r : GprNum) (v : Doubleword) : (writeGpr s r v).vr = s.vr := rfl
@[simp] theorem writeGpr_mem (s : State) (r : GprNum) (v : Doubleword) : (writeGpr s r v).mem = s.mem := rfl
@[simp] theorem writeGpr_config (s : State) (r : GprNum) (v : Doubleword) :
    (writeGpr s r v).config = s.config := rfl

/-! ### writeFpr -/
@[simp] theorem writeFpr_gpr (s : State) (r : FprNum) (v : Doubleword) : (writeFpr s r v).gpr = s.gpr := rfl
@[simp] theorem writeFpr_fpr (s : State) (r : FprNum) (v : Doubleword) :
    (writeFpr s r v).fpr = s.fpr.set r.val v := rfl
@[simp] theorem writeFpr_pc (s : State) (r : FprNum) (v : Doubleword) : (writeFpr s r v).pc = s.pc := rfl
@[simp] theorem writeFpr_msrFp (s : State) (r : FprNum) (v : Doubleword) : (writeFpr s r v).msrFp = s.msrFp := rfl
@[simp] theorem writeFpr_cr (s : State) (r : FprNum) (v : Doubleword) : (writeFpr s r v).cr = s.cr := rfl
@[simp] theorem writeFpr_xer (s : State) (r : FprNum) (v : Doubleword) : (writeFpr s r v).xer = s.xer := rfl
@[simp] theorem writeFpr_fpscr (s : State) (r : FprNum) (v : Doubleword) : (writeFpr s r v).fpscr = s.fpscr := rfl
@[simp] theorem writeFpr_vr (s : State) (r : FprNum) (v : Doubleword) : (writeFpr s r v).vr = s.vr := rfl
@[simp] theorem writeFpr_mem (s : State) (r : FprNum) (v : Doubleword) : (writeFpr s r v).mem = s.mem := rfl
@[simp] theorem writeFpr_config (s : State) (r : FprNum) (v : Doubleword) :
    (writeFpr s r v).config = s.config := rfl

/-! ### advancePc -/
@[simp] theorem advancePc_gpr (s : State) : (advancePc s).gpr = s.gpr := rfl
@[simp] theorem advancePc_fpr (s : State) : (advancePc s).fpr = s.fpr := rfl
@[simp] theorem advancePc_pc (s : State) : (advancePc s).pc = nextPc s.config s.pc := rfl
@[simp] theorem advancePc_msrFp (s : State) : (advancePc s).msrFp = s.msrFp := rfl
@[simp] theorem advancePc_cr (s : State) : (advancePc s).cr = s.cr := rfl
@[simp] theorem advancePc_xer (s : State) : (advancePc s).xer = s.xer := rfl
@[simp] theorem advancePc_fpscr (s : State) : (advancePc s).fpscr = s.fpscr := rfl
@[simp] theorem advancePc_vr (s : State) : (advancePc s).vr = s.vr := rfl
@[simp] theorem advancePc_mem (s : State) : (advancePc s).mem = s.mem := rfl
@[simp] theorem advancePc_config (s : State) : (advancePc s).config = s.config := rfl

/-! ### Reading after an update -/
@[simp] theorem readGpr_writeGpr_self (s : State) (r : GprNum) (v : Doubleword) :
    readGpr (writeGpr s r v) r = v := by simp [readGpr]

theorem readGpr_writeGpr_ne (s : State) (v : Doubleword) {r k : GprNum} (h : k ≠ r) :
    readGpr (writeGpr s r v) k = readGpr s k := by
  have hne : r.val ≠ k.val := fun e => h (Fin.ext e.symm)
  simp [readGpr, Vector.getElem_set_ne, hne]

@[simp] theorem readFpr_writeFpr_self (s : State) (r : FprNum) (v : Doubleword) :
    readFpr (writeFpr s r v) r = v := by simp [readFpr]

theorem readFpr_writeFpr_ne (s : State) (v : Doubleword) {r k : FprNum} (h : k ≠ r) :
    readFpr (writeFpr s r v) k = readFpr s k := by
  have hne : r.val ≠ k.val := fun e => h (Fin.ext e.symm)
  simp [readFpr, Vector.getElem_set_ne, hne]

@[simp] theorem readGpr_writeFpr (s : State) (r : FprNum) (v : Doubleword) (k : GprNum) :
    readGpr (writeFpr s r v) k = readGpr s k := rfl
@[simp] theorem readFpr_writeGpr (s : State) (r : GprNum) (v : Doubleword) (k : FprNum) :
    readFpr (writeGpr s r v) k = readFpr s k := rfl
@[simp] theorem readGpr_advancePc (s : State) (k : GprNum) : readGpr (advancePc s) k = readGpr s k := rfl
@[simp] theorem readFpr_advancePc (s : State) (k : FprNum) : readFpr (advancePc s) k = readFpr s k := rfl

/-- The program counter after `pc <- pc + 4`, as a number. -/
theorem nextPc_toNat (c : Config) (pc : PcWord) :
    (nextPc c pc).toNat = (pc.toNat + 4) % 2 ^ c.pcWidth.bits := by
  have h : (pc.toNat + 4) % 2 ^ c.pcWidth.bits < 2 ^ 64 := by
    cases hw : c.pcWidth <;> simp only [PcWidth.bits] <;> omega
  rw [nextPc, BitVec.toNat_ofNat, Nat.mod_eq_of_lt h]

end Sys2Proof.Machine
end

