-- ==== Sys2Proof/Laws/Exec.lean ====
section
/-! SUPPORT. What each shared operation can do, said once; provers cite these instead of unfolding. -/

namespace Sys2Proof.Machine

/-! ### The shared operations -/

theorem memRead_eq_some {s : State} {a : Addr} {n : Nat} {v : BitVec (8 * n)} (h : memRead s a n = some v) :
    admits s.config a n = true ∧ v = s.mem.readBE a.toNat n := by
  unfold memRead at h
  split at h
  · next hc => exact ⟨hc, by cases h; rfl⟩
  · cases h

theorem memRead_of_admits {s : State} {a : Addr} {n : Nat} (h : admits s.config a n = true) :
    memRead s a n = some (s.mem.readBE a.toNat n) := if_pos h

theorem memRead_of_not_admits {s : State} {a : Addr} {n : Nat} (h : admits s.config a n = false) :
    memRead s a n = none := by simp [memRead, h]

/-- Admission says what `IsMemory` says. -/
theorem admits_iff {s : State} {a : Addr} {n : Nat} :
    admits s.config a n = true ↔ IsMemory s a.toNat n := by
  simp [admits]

/-- Any predicate on an address and a byte count is an `Admit` of the model: R31's launch parameter loses nothing by being
plain data. -/
theorem every_predicate_is_an_admission (p : Nat → Nat → Bool) (c : Config) :
    ∃ l : List Admission, ∀ a n, a + n ≤ 2 ^ 32 → admitPredicate { c with admitted := l } a n = p a n := by
  generalize 2 ^ 32 = top
  refine ⟨(List.range (top + 1)).flatMap fun a =>
    ((List.range (top + 1)).filter (p a)).map fun n => .accesses n a 1 1, fun a n h => ?_⟩
  rw [Bool.eq_iff_iff]
  simp only [admitPredicate, List.any_eq_true, List.mem_flatMap, List.mem_map, List.mem_filter, List.mem_range]
  constructor
  · rintro ⟨e, ⟨a', _, n', ⟨_, hp⟩, rfl⟩, hc⟩
    simp only [admissionCovers, Bool.and_eq_true, decide_eq_true_eq, Nat.mod_one, Nat.div_one] at hc
    obtain rfl : a = a' := by omega
    obtain rfl : n = n' := hc.1.1.1
    exact hp
  · intro hp
    exact ⟨_, ⟨a, by omega, n, ⟨by omega, hp⟩, rfl⟩, by simp [admissionCovers]⟩

/-- Admitting the word at an address admits that one access more and no other. -/
theorem admitPredicate_admitWord {c : Config} {addr : Addr} (a n : Nat) :
    admitPredicate (admitWord c addr) a n = true ↔ admitPredicate c a n = true ∨ (a = addr.toNat ∧ n = 4) := by
  unfold admitWord
  split
  · next ha =>
    refine ⟨.inl, ?_⟩
    rintro (hp | ⟨rfl, rfl⟩)
    · exact hp
    · simp only [admits, Bool.and_eq_true] at ha
      exact ha.2
  · simp only [admitPredicate, List.any_cons, Bool.or_eq_true, admissionCovers, Bool.and_eq_true, decide_eq_true_eq,
      Nat.mod_one, Nat.div_one]
    constructor
    · rintro (hc | hp)
      · exact .inr ⟨by omega, hc.1.1.1⟩
      · exact .inl hp
    · rintro (hp | ⟨rfl, rfl⟩)
      · exact .inr hp
      · exact .inl ⟨⟨⟨rfl, Nat.le_refl _⟩, trivial⟩, by omega⟩

theorem requireFp_eq_next {s t : State} {k : Exec} (h : requireFp s k = .next t) :
    s.msrFp = true ∧ k = .next t := by
  unfold requireFp fpAvailable at h
  split at h
  · next hc => exact ⟨hc, h⟩
  · cases h

theorem unlessInvalidForm_eq_next {i : Instr} {ra : GprNum} {s t : State} {k : Exec}
    (h : unlessInvalidForm i ra s k = .next t) :
    (ra ≠ 0 ∨ s.config.invalidForm = .snapshot) ∧ k = .next t := by
  unfold unlessInvalidForm at h
  split at h
  · cases h
  · next hc =>
    refine ⟨?_, h⟩
    by_cases hr : ra = 0
    · refine .inr ?_
      cases hp : s.config.invalidForm with
      | refuse => exact absurd ⟨hr, hp⟩ hc
      | snapshot => rfl
    · exact .inl hr

/-! ### The family as one function -/

/-- The state after an instruction that completes (R70): FRT, RA in the update forms, and the pc. -/
def afterLoad (i : Instr) (s : State) : State :=
  let v : Doubleword := s.mem.readBE (eaOf i s).toNat 8
  match updatedOf i with
  | none => advancePc (writeFpr s (destOf i) v)
  | some ra => advancePc (writeGpr (writeFpr s (destOf i) v) ra ((eaOf i s).setWidth 64))

theorem loadDouble_eq (frt : FprNum) (ea : Addr) (s : State) : loadDouble frt ea s =
    if admits s.config ea 8 = true then .next (advancePc (writeFpr s frt (s.mem.readBE ea.toNat 8)))
    else .fault (.memFault ea) := by
  unfold loadDouble memRead
  split <;> split <;> simp_all [raiseException]

theorem loadDoubleUpdate_eq (frt : FprNum) (ra : GprNum) (ea : Addr) (s : State) : loadDoubleUpdate frt ra ea s =
    if admits s.config ea 8 = true then
      .next (advancePc (writeGpr (writeFpr s frt (s.mem.readBE ea.toNat 8)) ra (ea.setWidth 64)))
    else .fault (.memFault ea) := by
  unfold loadDoubleUpdate memRead
  split <;> split <;> simp_all [raiseException]

/-- Everything an instruction can do, in the order of R77. -/
theorem exec_eq (i : Instr) (s : State) : exec i s =
    if s.msrFp = false then .fault .fpUnavailable
    else if ¬ FormRuns i s then .refused (.invalidForm (encode i))
    else if admits s.config (eaOf i s) 8 = true then .next (afterLoad i s)
    else .fault (.memFault (eaOf i s)) := by
  have hpol : ¬ s.config.invalidForm = .snapshot ↔ s.config.invalidForm = .refuse := by
    cases s.config.invalidForm <;> simp
  cases i <;> cases hfp : s.msrFp <;>
    simp only [exec, execLfd, execLfdu, execLfdux, execLfdx, requireFp, fpAvailable, hfp, FormRuns,
      Instr.isInvalidForm, unlessInvalidForm, loadDouble_eq, loadDoubleUpdate_eq, afterLoad, updatedOf, destOf, eaOf,
      raiseException, not_or, hpol, beq_eq_false_iff_ne, ne_eq, not_not, if_true, if_false, Bool.false_eq_true,
      reduceCtorEq, not_true_eq_false, true_or] <;>
    rfl

/-- An instruction that is ready completes. -/
theorem exec_of_ready {i : Instr} {s : State} (h : Ready i s) : exec i s = .next (afterLoad i s) := by
  rw [exec_eq, if_neg (by simp [h.1]), if_neg (not_not.mpr h.2.1), if_pos h.2.2]

/-- If an instruction completes it was ready, and the state after it is `afterLoad`. -/
theorem exec_eq_next {i : Instr} {s t : State} (h : exec i s = .next t) : Ready i s ∧ t = afterLoad i s := by
  rw [exec_eq] at h
  split at h
  · cases h
  · next hfp =>
    split at h
    · cases h
    · next hf =>
      split at h
      · next ha =>
        cases h
        exact ⟨⟨by simpa using hfp, not_not.mp hf, ha⟩, rfl⟩
      · cases h

/-! ### The fields after an instruction -/
@[simp] theorem afterLoad_pc (i : Instr) (s : State) : (afterLoad i s).pc = nextPc s.config s.pc := by
  cases i <;> rfl
@[simp] theorem afterLoad_msrFp (i : Instr) (s : State) : (afterLoad i s).msrFp = s.msrFp := by cases i <;> rfl
@[simp] theorem afterLoad_cr (i : Instr) (s : State) : (afterLoad i s).cr = s.cr := by cases i <;> rfl
@[simp] theorem afterLoad_xer (i : Instr) (s : State) : (afterLoad i s).xer = s.xer := by cases i <;> rfl
@[simp] theorem afterLoad_fpscr (i : Instr) (s : State) : (afterLoad i s).fpscr = s.fpscr := by cases i <;> rfl
@[simp] theorem afterLoad_vr (i : Instr) (s : State) : (afterLoad i s).vr = s.vr := by cases i <;> rfl
@[simp] theorem afterLoad_mem (i : Instr) (s : State) : (afterLoad i s).mem = s.mem := by cases i <;> rfl
@[simp] theorem afterLoad_config (i : Instr) (s : State) : (afterLoad i s).config = s.config := by
  cases i <;> rfl
theorem afterLoad_fpr (i : Instr) (s : State) :
    (afterLoad i s).fpr = s.fpr.set (destOf i).val (s.mem.readBE (eaOf i s).toNat 8) := by cases i <;> rfl

theorem afterLoad_gpr (i : Instr) (s : State) : (afterLoad i s).gpr =
    (match updatedOf i with
      | none => s.gpr
      | some ra => s.gpr.set ra.val ((eaOf i s).setWidth 64)) := by cases i <;> rfl

theorem readGpr_afterLoad_updated {i : Instr} {s : State} {ra : GprNum} (h : updatedOf i = some ra) :
    readGpr (afterLoad i s) ra = (eaOf i s).setWidth 64 := by
  simp only [afterLoad, h, readGpr_advancePc, readGpr_writeGpr_self]

theorem readGpr_afterLoad_other {i : Instr} {s : State} {r : GprNum} (h : updatedOf i ≠ some r) :
    readGpr (afterLoad i s) r = readGpr s r := by
  cases hu : updatedOf i with
  | none => simp only [afterLoad, hu, readGpr_advancePc, readGpr_writeFpr]
  | some ra =>
    have hne : r ≠ ra := fun e => h (e ▸ hu)
    simp only [afterLoad, hu, readGpr_advancePc, readGpr_writeGpr_ne _ _ hne, readGpr_writeFpr]

theorem readFpr_afterLoad_dest (i : Instr) (s : State) :
    readFpr (afterLoad i s) (destOf i) = s.mem.readBE (eaOf i s).toNat 8 := by
  cases hu : updatedOf i <;>
    simp only [afterLoad, hu, readFpr_advancePc, readFpr_writeGpr, readFpr_writeFpr_self]

theorem readFpr_afterLoad_other {i : Instr} {s : State} {r : FprNum} (h : r ≠ destOf i) :
    readFpr (afterLoad i s) r = readFpr s r := by
  cases hu : updatedOf i <;>
    simp only [afterLoad, hu, readFpr_advancePc, readFpr_writeGpr, readFpr_writeFpr_ne _ _ h]

/-! ### Fetch and step -/

/-- If a fetch answers an instruction, the pc was fetchable and the four bytes at it decode to that instruction. -/
theorem fetch_eq_next {s : State} {i : Instr} (h : fetch s = .next i) :
    pcRefusal s = none ∧ ∃ iw, memRead s (fetchAddr s) 4 = some iw ∧ decode iw = .ok i := by
  unfold fetch at h
  split at h
  · cases h
  · next hp =>
    refine ⟨hp, ?_⟩
    split at h
    · cases h
    · next iw hm =>
      split at h
      · next hd => cases h; exact ⟨iw, hm, hd⟩
      · cases h

/-- A fetchable pc is a multiple of 4, names a byte of memory, and is not the last word of its width. -/
theorem pcRefusal_eq_none {s : State} : pcRefusal s = none ↔
    s.pc.toNat % 4 = 0 ∧ s.pc.toNat < 2 ^ 32 ∧ s.pc.toNat + 4 < 2 ^ s.config.pcWidth.bits := by
  unfold pcRefusal
  split
  · next h => simp [h]
  · next h =>
    split
    · next hw => simp only [reduceCtorEq, false_iff]; omega
    · next hw => simp only [true_iff]; omega

/-- If a step answers a next state, it ran the instruction it fetched. -/
theorem step_eq_next {s t : State} (h : step s = .next t) : ∃ i, fetch s = .next i ∧ exec i s = .next t := by
  unfold step at h
  split at h
  · next i hf => exact ⟨i, hf, h⟩
  · cases h
  · cases h

/-- What a step that answers a next state does to the pc, the configuration and memory. -/
theorem step_frame {s t : State} (h : step s = .next t) :
    s.pc.toNat % 4 = 0 ∧ t.pc.toNat = s.pc.toNat + 4 ∧ t.pc.toNat < 2 ^ s.config.pcWidth.bits ∧
      t.config = s.config ∧ t.mem = s.mem ∧ t.msrFp = s.msrFp := by
  obtain ⟨i, hf, he⟩ := step_eq_next h
  obtain ⟨h4, _, hw⟩ := pcRefusal_eq_none.mp (fetch_eq_next hf).1
  obtain ⟨_, rfl⟩ := exec_eq_next he
  rw [afterLoad_pc, nextPc_toNat, Nat.mod_eq_of_lt hw]
  exact ⟨h4, rfl, hw, afterLoad_config i s, afterLoad_mem i s, afterLoad_msrFp i s⟩

/-! ### Runs -/

/-- The run of `Safety.lean` is the host's run of the machine. -/
theorem runSteps_eq_host_run (n : Nat) (s : State) : Host.Core.run Sys2Proof.core n s = runSteps n s := by
  induction n generalizing s with
  | zero => rfl
  | succ n ih =>
    cases h : step s with
    | next t =>
      have hc : Sys2Proof.core.step s = .next t := h
      simp only [Host.Core.run, runSteps, hc, h]
      exact ih t
    | fault f =>
      have hc : Sys2Proof.core.step s = .fault f := h
      simp only [Host.Core.run, runSteps, hc, h]
      rfl
    | refused r =>
      have hc : Sys2Proof.core.step s = .refused r := h
      simp only [Host.Core.run, runSteps, hc, h]
      rfl

theorem runSteps_succ_eq_next {n : Nat} {s t : State} :
    runSteps (n + 1) s = .next t ↔ ∃ u, step s = .next u ∧ runSteps n u = .next t := by
  rw [runSteps]
  cases step s <;> simp

/-- The last step of a run, split off. -/
theorem runSteps_succ_last {n : Nat} {s t : State} :
    runSteps (n + 1) s = .next t ↔ ∃ u, runSteps n s = .next u ∧ step u = .next t := by
  induction n generalizing s with
  | zero => rw [runSteps_succ_eq_next]; simp [runSteps]
  | succ n ih =>
    rw [runSteps_succ_eq_next]
    constructor
    · rintro ⟨u, h1, h2⟩
      obtain ⟨v, h3, h4⟩ := ih.mp h2
      exact ⟨v, runSteps_succ_eq_next.mpr ⟨u, h1, h3⟩, h4⟩
    · rintro ⟨v, h1, h2⟩
      obtain ⟨u, h3, h4⟩ := runSteps_succ_eq_next.mp h1
      exact ⟨u, h3, ih.mpr ⟨v, h4, h2⟩⟩

end Sys2Proof.Machine
end

