-- ==== Sys2Proof/Laws/Memory.lean ====
section
/-! SUPPORT. Memory: a byte written is the byte read, every other byte stays, and every operation
keeps the canonical form. -/

namespace Sys2Proof.Machine

theorem Memory.wfFrom_mono {lo lo' : Nat} {m : Memory} (hle : lo' ≤ lo) (h : m.wfFrom lo = true) :
    m.wfFrom lo' = true := by
  cases m with
  | nil => rfl
  | cons c m =>
    simp only [Memory.wfFrom, Bool.and_eq_true, decide_eq_true_eq] at h ⊢
    exact ⟨⟨⟨by omega, h.1.1.2⟩, h.1.2⟩, h.2⟩

/-- An address below every listed one reads as unlisted. -/
theorem Memory.read_of_wfFrom {lo : Nat} {m : Memory} (h : m.wfFrom lo = true) {a : Nat} (ha : a < lo) :
    m.read a = unlistedByte := by
  induction m generalizing lo with
  | nil => rfl
  | cons c m ih =>
    simp only [Memory.wfFrom, Bool.and_eq_true, decide_eq_true_eq] at h
    rw [Memory.read, if_neg (by omega)]
    exact ih h.2 (by omega)

/-- A write leaves every other byte alone. -/
theorem Memory.read_write_ne (m : Memory) {a k : Nat} (b : Byte) (h : k ≠ a) :
    (m.write a b).read k = m.read k := by
  induction m with
  | nil => by_cases hb : b = unlistedByte <;> simp [Memory.write, Memory.read, hb, h]
  | cons c m ih =>
    obtain ⟨a', b'⟩ := c
    rw [Memory.write]
    split
    · split <;> simp [Memory.read, h]
    · split
      · next e => subst e; split <;> simp [Memory.read, h]
      · simp [Memory.read, ih]

/-- A byte written is the byte read, in a canonical memory. -/
theorem Memory.read_write_self {lo : Nat} {m : Memory} (h : m.wfFrom lo = true) (a : Nat) (b : Byte) :
    (m.write a b).read a = b := by
  induction m generalizing lo with
  | nil => by_cases hb : b = unlistedByte <;> simp [Memory.write, Memory.read, hb]
  | cons c m ih =>
    obtain ⟨a', b'⟩ := c
    simp only [Memory.wfFrom, Bool.and_eq_true, decide_eq_true_eq] at h
    rw [Memory.write]
    split
    · next hlt =>
      split
      · next hb =>
        rw [Memory.read, if_neg (by omega), hb]
        exact Memory.read_of_wfFrom h.2 (by omega)
      · simp [Memory.read]
    · split
      · next e =>
        subst e
        split
        · next hb => rw [hb]; exact Memory.read_of_wfFrom h.2 (by omega)
        · simp [Memory.read]
      · next hne =>
        rw [Memory.read, if_neg hne]
        exact ih h.2

theorem Memory.write_wfFrom {lo : Nat} {m : Memory} (h : m.wfFrom lo = true) {a : Nat} (hlo : lo ≤ a)
    (ha : a < 2 ^ 32) (b : Byte) : (m.write a b).wfFrom lo = true := by
  induction m generalizing lo with
  | nil =>
    rw [Memory.write]
    split
    · rfl
    · next hb =>
      simp only [Memory.wfFrom, Bool.and_eq_true, decide_eq_true_eq, and_true]
      exact ⟨⟨hlo, ha⟩, hb⟩
  | cons c m ih =>
    obtain ⟨a', b'⟩ := c
    have hc := h
    simp only [Memory.wfFrom, Bool.and_eq_true, decide_eq_true_eq] at h
    rw [Memory.write]
    split
    · next hlt =>
      split
      · exact hc
      · next hb =>
        simp only [Memory.wfFrom, Bool.and_eq_true, decide_eq_true_eq]
        exact ⟨⟨⟨hlo, ha⟩, hb⟩, ⟨⟨by omega, h.1.1.2⟩, h.1.2⟩, h.2⟩
    · split
      · next e =>
        subst e
        split
        · exact Memory.wfFrom_mono (by omega) h.2
        · next hb =>
          simp only [Memory.wfFrom, Bool.and_eq_true, decide_eq_true_eq]
          exact ⟨⟨⟨hlo, ha⟩, hb⟩, h.2⟩
      · simp only [Memory.wfFrom, Bool.and_eq_true, decide_eq_true_eq]
        exact ⟨h.1, ih h.2 (by omega)⟩

/-- One byte written keeps the canonical form. -/
theorem Memory.write_wf {m : Memory} (h : m.wf = true) {a : Nat} (ha : a < 2 ^ 32) (b : Byte) :
    (m.write a b).wf = true := Memory.write_wfFrom h (Nat.zero_le _) ha b

/-- A wide write keeps the canonical form. -/
theorem Memory.writeBE_wf {m : Memory} (h : m.wf = true) {a : Nat} (n : Nat) (ha : a + n ≤ 2 ^ 32)
    (v : BitVec (8 * n)) : (m.writeBE a n v).wf = true := by
  induction n with
  | zero => exact h
  | succ n ih => exact Memory.write_wf (ih (by omega) _) (by omega) _

/-- A wide write leaves every byte outside it alone. -/
theorem Memory.read_writeBE_ne (m : Memory) {a k : Nat} (n : Nat) (v : BitVec (8 * n)) (h : k < a ∨ a + n ≤ k) :
    (m.writeBE a n v).read k = m.read k := by
  induction n with
  | zero => rfl
  | succ n ih =>
    rw [Memory.writeBE, Memory.read_write_ne _ _ (by omega)]
    exact ih _ (by omega)

/-- A wide read depends only on its own bytes. -/
theorem Memory.readBE_congr {m m' : Memory} {a : Nat} (n : Nat)
    (h : ∀ k, k < n → m.read (a + k) = m'.read (a + k)) : m.readBE a n = m'.readBE a n := by
  induction n with
  | zero => rfl
  | succ n ih =>
    rw [Memory.readBE, Memory.readBE, ih fun k hk => h k (by omega), h n (by omega)]

theorem memWrite_keeps_wf {s t : State} {addr : Addr} {n : Nat} {v : BitVec (8 * n)} (h : s.mem.wf = true)
    (hw : memWrite s addr n v = some t) : t.mem.wf = true := by
  simp only [memWrite, admits, Bool.and_eq_true, decide_eq_true_eq] at hw
  split at hw
  · next hc =>
    cases hw
    exact Memory.writeBE_wf h n hc.1 v
  · cases hw

end Sys2Proof.Machine
end

