-- ==== Sys2Proof/Laws/PerInstr.lean ====
section
/-! SUPPORT. Statements made per instruction, about instructions as syntax: one lemma per
constructor. -/

namespace Sys2Proof.Laws

/-- An instruction's word matches its own row of the opcode map (R55: `iw AND mask = match`). -/
def EncodeMatchesRow.Statement (i : Instr) : Prop := encode i &&& rowMask i = rowMatch i

/-- The D rows' mask keeps OPCD alone. -/
theorem and_maskD (iw : InsnWord) : iw &&& 0xFC000000 = fieldOpcd iw ++ 0#26 := by
  ext i hi
  simp only [fieldOpcd, BitVec.getElem_and, BitVec.getElem_append, BitVec.getElem_extractLsb', BitVec.getElem_zero]
  interval_cases i <;> simp

/-- The X rows' mask keeps OPCD, XO and Rc. -/
theorem and_maskX (iw : InsnWord) : iw &&& 0xFC0007FF = fieldOpcd iw ++ 0#15 ++ fieldXo iw ++ fieldRc iw := by
  ext i hi
  simp only [fieldOpcd, fieldXo, fieldRc, BitVec.getElem_and, BitVec.getElem_append, BitVec.getElem_extractLsb',
    BitVec.getElem_zero]
  interval_cases i <;> simp

namespace EncodeMatchesRow

theorem lfd (frt : FprNum) (ra : GprNum) (d : BitVec 16) : Statement (.lfd frt ra d) := by
  simp only [Statement, encode, rowMask, rowMatch, and_maskD, formD_fields]; decide

theorem lfdu (frt : FprNum) (ra : GprNum) (d : BitVec 16) : Statement (.lfdu frt ra d) := by
  simp only [Statement, encode, rowMask, rowMatch, and_maskD, formD_fields]; decide

theorem lfdux (frt : FprNum) (ra rb : GprNum) : Statement (.lfdux frt ra rb) := by
  simp only [Statement, encode, rowMask, rowMatch, and_maskX, formX_fields]; decide

theorem lfdx (frt : FprNum) (ra rb : GprNum) : Statement (.lfdx frt ra rb) := by
  simp only [Statement, encode, rowMask, rowMatch, and_maskX, formX_fields]; decide

end EncodeMatchesRow

end Sys2Proof.Laws
end

