-- ==== Sys2Proof/Laws/Run.lean ====
section
/-! SUPPORT. One lemma per case of `Run.advance`. -/

namespace Sys2Proof.Machine

@[simp] theorem Run.launch_state (s : State) : (Run.launch s).state = s := rfl
@[simp] theorem Run.launch_stop (s : State) : (Run.launch s).stop = none := rfl

/-- A stopped run stays as it is. -/
theorem Run.advance_of_stop {endPc : PcWord} {r : Run} {x : Stop} (h : r.stop = some x) :
    Run.advance endPc r = r := by
  unfold Run.advance
  rw [h]

/-- A run at its end stays as it is. -/
theorem Run.advance_of_end {endPc : PcWord} {r : Run} (h : r.state.pc = endPc) : Run.advance endPc r = r := by
  unfold Run.advance
  split
  · rfl
  · rw [if_pos h]

theorem Run.advance_of_next {endPc : PcWord} {r : Run} {t : State} (h0 : r.stop = none) (hp : r.state.pc ≠ endPc)
    (hs : step r.state = .next t) : Run.advance endPc r = { state := t, stop := none } := by
  unfold Run.advance
  rw [h0]
  dsimp only
  rw [if_neg hp, hs]

theorem Run.advance_of_fault {endPc : PcWord} {r : Run} {f : Fault} (h0 : r.stop = none) (hp : r.state.pc ≠ endPc)
    (hs : step r.state = .fault f) :
    Run.advance endPc r = { state := r.state, stop := some (.fault f) } := by
  unfold Run.advance
  rw [h0]
  dsimp only
  rw [if_neg hp, hs]

theorem Run.advance_of_refused {endPc : PcWord} {r : Run} {why : Refusal} (h0 : r.stop = none)
    (hp : r.state.pc ≠ endPc) (hs : step r.state = .refused why) :
    Run.advance endPc r = { state := r.state, stop := some (.refusal why) } := by
  unfold Run.advance
  rw [h0]
  dsimp only
  rw [if_neg hp, hs]

/-- The last step of a run, split off. -/
theorem Run.advances_succ_last (endPc : PcWord) (n : Nat) (r : Run) :
    Run.advances endPc (n + 1) r = Run.advance endPc (Run.advances endPc n r) := by
  induction n generalizing r with
  | zero => rfl
  | succ n ih => rw [Run.advances, ih, Run.advances]

end Sys2Proof.Machine
end

