-- ==== Sys2Proof/Tests/Slice0.lean ====
section
/-! SUPPORT. Tests on small states, with results from the spec's examples and vectors, and one
witness for every statement with hypotheses. -/

open Sys2Proof Sys2Proof.Machine

namespace Sys2Proof.Tests

/-! ### Small states -/

/-- Memory with the bytes of `bs` from address `a` on. -/
def poke (m : Memory) (a : Nat) : List Byte → Memory
  | [] => m
  | b :: bs => poke (m.write a b) (a + 1) bs

/-- The doublewords at 0x1008, 0x1010 and 0x1030 of the launch memory of 95_test_vectors.md 2.1, and the 8 bytes at 0. -/
def vectorMem : Memory :=
  poke (poke (poke [] 0 [0x40, 0x59, 0, 0, 0, 0, 0, 0])
    0x1008 [0xC0, 0x04, 0, 0, 0, 0, 0, 0, 0x40, 0x09, 0x21, 0xFB, 0x54, 0x44, 0x2D, 0x18])
    0x1030 [0x00, 0x11, 0x22, 0x33, 0x44, 0x55, 0x66, 0x77, 0x88, 0x99, 0xAA, 0xBB, 0xCC, 0xDD, 0xEE, 0xFF]

/-- The admitted ranges of 95_test_vectors.md 2.1 that the tests use, and the program's. -/
def vectorRanges : List Admission :=
  [.range 0 16, .range 0x1000 0x40, .range 0xFFFFFFF0 16, .range 0x10000 0x100]

/-- A launch state with that memory, the pc at 0x10000. -/
def base : State :=
  { State.reset with pc := 0x10000, mem := vectorMem, config := { Config.default with admitted := vectorRanges } }

/-- `base` with one general register set. -/
def with1 (r : GprNum) (v : Doubleword) : State := writeGpr base r v

/-- `base` with two general registers set. -/
def with2 (r : GprNum) (v : Doubleword) (k : GprNum) (w : Doubleword) : State := writeGpr (with1 r v) k w

/-- `base` under the policy `snapshot`, with r0 set. -/
def snap (v : Doubleword) : State :=
  { with1 0 v with config := { base.config with invalidForm := .snapshot } }

/-- `base` with a word at its pc. -/
def running (s : State) (iw : InsnWord) : State := placeWord s iw

/-- The machine with PC_BITS = 64 and a pc above the 32-bit space. -/
def highPc : State := { base with pc := 0x100000000, config := { base.config with pcWidth := .bits64 } }

/-- A test on the state an instruction leaves; false where it leaves none. -/
def after (e : Exec) (p : State → Bool) : Bool :=
  match e with
  | .next t => p t
  | _ => false

/-- The fault an instruction ends in. -/
def faultOf : Exec → Option Fault
  | .fault f => some f
  | _ => none

/-- The refusal an instruction ends in. -/
def refusalIn : Exec → Option Refusal
  | .refused r => some r
  | _ => none

/-! ### Well-formedness (R58): an ill-formed term for each check -/

theorem test_wellFormed_refuses_lfdu_r0 : (Instr.lfdu 7 0 16).wellFormed = false := by decide
theorem test_wellFormed_refuses_lfdux_r0 : (Instr.lfdux 3 0 4).wellFormed = false := by decide
theorem test_wellFormed_accepts_equal_numbers : (Instr.lfdu 4 4 8).wellFormed = true := by decide

/-! ### Decoding: words written out bit by bit from the tables of R52 and R55 -/

/-- OPCD 110010, FRT 00001, RA 00011, D 0000000000001000. -/
theorem test_decode_lfd :
    decode (0b110010#6 ++ 0b00001#5 ++ 0b00011#5 ++ 0b0000000000001000#16) = .ok (.lfd 1 3 8) := by decide
/-- OPCD 110011, FRT 00100, RA 01001, D 1111111111110000 (R72's example, −16). -/
theorem test_decode_lfdu :
    decode (0b110011#6 ++ 0b00100#5 ++ 0b01001#5 ++ 0b1111111111110000#16) = .ok (.lfdu 4 9 (-16)) := by decide
/-- OPCD 011111, FRT 01001, RA 01010, RB 01011, XO 1001110111, Rc 0 (R73's example). -/
theorem test_decode_lfdux :
    decode (0b011111#6 ++ 0b01001#5 ++ 0b01010#5 ++ 0b01011#5 ++ 0b1001110111#10 ++ 0#1) =
      .ok (.lfdux 9 10 11) := by decide
/-- OPCD 011111, FRT 01000, RA 00000, RB 00111, XO 1001010111, Rc 0 (R74's example). -/
theorem test_decode_lfdx :
    decode (0b011111#6 ++ 0b01000#5 ++ 0b00000#5 ++ 0b00111#5 ++ 0b1001010111#10 ++ 0#1) =
      .ok (.lfdx 8 0 7) := by decide
/-- R35: the opcode word 0xC8000000 lies in memory as C8 00 00 00. -/
theorem test_decode_bytes : decodeBytes [0xC8, 0x23, 0x00, 0x08, 0xFF] = .ok (.lfd 1 3 8, [0xFF]) := by decide
theorem test_decode_truncated : decodeBytes [0xC8, 0x23] = .error (.truncated 2) := by decide
/-- 95_test_vectors.md 2.2: the neighbours of the four rows are refused. -/
theorem test_decode_neighbours :
    decode 0xD0000000 = .error (.notInScope 0xD0000000) ∧ decode 0x7C0004AC = .error (.notInScope 0x7C0004AC) ∧
    decode 0x7C0004F0 = .error (.notInScope 0x7C0004F0) ∧ decode 0x800004AE = .error (.notInScope 0x800004AE) ∧
    decode 0x7D2A5CEF = .error (.reservedBitSet 0x7D2A5CEF) := by decide
theorem test_decodeTableWord : decodeTableWord 32 0xCC000000 = some (.lfdu 0 0 0) ∧
    decodeTableWord 32 0x7C0004AE = some (.lfdx 0 0 0) ∧ decodeTableWord 32 0 = none := by decide

/-! ### The instructions (95_test_vectors.md 2.3 to 2.6) -/

/-- V3 and V6: a negative absolute displacement, and an odd address straddling two doublewords. -/
theorem test_lfd_misaligned :
    after (exec (.lfd 12 8 3) (with1 8 0x1030)) (fun t => readFpr t 12 == 0x33445566778899AA && t.pc == 0x10004) = true := by
  decide
/-- V8: the carry out of bit 31 is dropped, and r3 keeps its value. -/
theorem test_lfd_carry : after (exec (.lfd 1 3 8) (with1 3 0xFFFFFFF8))
    (fun t => readFpr t 1 == 0x4059000000000000 && readGpr t 3 == 0xFFFFFFF8) = true := by decide
/-- V21: RA's upper half is cleared. -/
theorem test_lfdu_truncates : after (exec (.lfdu 4 9 (-16)) (with1 9 0xFFFFFFFF00001020))
    (fun t => readFpr t 4 == 0x400921FB54442D18 && readGpr t 9 == 0x1010) = true := by decide
/-- V31's shape with V32's values: RA = RB, the carry out of bit 63 dropped. -/
theorem test_lfdux_same_register : after (exec (.lfdux 2 5 5) (with1 5 0x8000000000000808))
    (fun t => readFpr t 2 == 0x400921FB54442D18 && readGpr t 5 == 0x1010) = true := by decide
/-- V33: the invalid form is refused with its word. -/
theorem test_lfdux_invalid :
    refusalIn (exec (.lfdux 3 0 4) (with2 0 0x1000 4 0x28)) = some (.invalidForm 0x7C6024EE) := by decide
/-- V43: RA = 0 is the literal zero, RB = 0 is r0. -/
theorem test_lfdx_zero_roles : after (exec (.lfdx 0 0 0) (with1 0 0x1008))
    (fun t => readFpr t 0 == 0xC004000000000000 && readGpr t 0 == 0x1008) = true := by decide
/-- V50: a negative base. -/
theorem test_lfdx_negative : after (exec (.lfdx 6 5 6) (with2 5 0xFFFFFFFFFFFFF000 6 0x2030))
    (fun t => readFpr t 6 == 0x0011223344556677) = true := by decide
/-- V23s: under `snapshot` the base is GPR[0] and GPR[0] is written. -/
theorem test_lfdu_snapshot : after (exec (.lfdu 7 0 16) (snap 0x1000))
    (fun t => readFpr t 7 == 0x400921FB54442D18 && readGpr t 0 == 0x1010) = true := by decide

/-! ### Stops of a step -/

/-- V13: the 8 bytes would pass 0xFFFFFFFF. -/
theorem test_step_top_of_memory : faultOf (step (running base 0xC860FFFC)) = some (.memFault 0xFFFFFFFC) := by decide
/-- V11. -/
theorem test_step_fp_unavailable :
    faultOf (step (running { base with msrFp := false } 0xC8230008)) = some .fpUnavailable := by decide
/-- V45: the reserved bit. -/
theorem test_step_reserved_bit :
    refusalIn (step (running base 0x7CC534AF)) = some (.reservedBitSet 0x7CC534AF) := by decide
/-- R17: the last word of the space is refused, with PC_BITS = 32; above it, with PC_BITS = 64. -/
theorem test_step_pcWrap : refusalIn (step { base with pc := 0xFFFFFFFC }) = some (.pcWrap 0xFFFFFFFC) ∧
    refusalIn (step highPc) = some (.pcWrap 0x100000000) := by decide
theorem test_step_pcMisaligned : refusalIn (step { base with pc := 0x10002 }) = some (.pcMisaligned 0x10002) := by decide
/-- The first instruction after reset, as the host places it. -/
theorem test_reset_runs_lfd : after (step (State.reset.withFetchWord 32 0xC8000000))
    (fun t => readFpr t 0 == 0xC800000000000000 && t.pc == 4) = true := by decide
theorem test_reset_mem_wf : State.reset.mem.wf = true := by decide
/-- R31: `Admit` may depend on the byte count and on alignment: with only the aligned accesses of 8 bytes admitted, the last
of the space is, and neither 4 bytes inside one nor a misaligned 8 are. -/
theorem test_admission_by_count_and_alignment :
    let c : Config := { Config.default with admitted := [.accesses 8 0 8 0x20000000] }
    admits c 0xFFFFFFF8 8 = true ∧ admits c 0x1008 4 = false ∧ admits c 0x1004 8 = false := by decide
/-- Writing what an unlisted address reads as removes the entry. -/
theorem test_memory_canonical : Memory.write [(3, 1), (5, 2)] 5 0 = [(3, 1)] := by decide

/-! ### Witnesses: a state and operands that meet the hypotheses of each statement together -/

theorem witness_EncodeOfDecodeIsTheWord : decode 0x7FFFFCEE = .ok (.lfdux 31 31 31) := by decide
/-- The boundary values of R54: −32768 and −1. -/
theorem witness_DisplacementIsSignExtended :
    decode 0xC81F8000 = .ok (.lfd 0 31 0x8000) ∧ decode 0xCFFFFFFF = .ok (.lfdu 31 31 0xFFFF) := by decide
theorem witness_ReservedBitIsRefused : pcRefusal (running base 0x7C0004EF) = none ∧
    memRead (running base 0x7C0004EF) (fetchAddr (running base 0x7C0004EF)) 4 = some 0x7C0004EF#32 ∧
    (0x7C0004EF#32).toNat / 2 ^ 26 = 31 ∧ (0x7C0004EF#32).toNat / 2 % 2 ^ 10 = 631 ∧ (0x7C0004EF#32).toNat % 2 = 1 := by
  decide
theorem witness_WordOutOfScopeIsRefused : pcRefusal (running base 0x7C0004B0) = none ∧
    memRead (running base 0x7C0004B0) (fetchAddr (running base 0x7C0004B0)) 4 = some 0x7C0004B0#32 ∧
    (0x7C0004B0#32).toNat / 2 ^ 26 = 31 ∧ (0x7C0004B0#32).toNat / 2 % 2 ^ 10 = 600 := by decide
/-- An 8-byte read that ends at 0xFFFFFFFF, the top of the space. -/
theorem witness_MemReadIsBigEndian : memRead base 0xFFFFFFF8 8 = some 0#64 ∧ memRead base 0xFFFFFFF8 4 = some 0#32 := by
  decide
theorem witness_LoadOutsideMemoryFaults :
    let s := running base 0xC860FFFC
    s.msrFp = true ∧ FormRuns (.lfd 3 0 (-4)) s ∧ ¬ IsMemory s (eaOf (.lfd 3 0 (-4)) s).toNat 8 ∧
    fetch s = .next (.lfd 3 0 (-4)) ∧ s.pc ≠ 0x10004 := by
  refine ⟨by decide, by decide, by decide, rfl, by decide⟩
theorem witness_MemReadAfterMemWrite : base.mem.wf = true ∧ (memWrite base 0x1008 8 1#64).isSome = true := by decide
theorem witness_EffectiveAddressIsTheLowSum : (0xFFFFFFFF00001000 : Doubleword).extractLsb' 0 32 =
    (0x0000000000001000 : Doubleword).extractLsb' 0 32 := by decide
theorem witness_RegisterZeroRole : base.msrFp = true ∧ IsMemory base 0 8 := by decide
theorem witness_UpperHalvesNeverMatter :
    SameLowHalves (with1 3 0x1000) (with1 3 0xFFFFFFFF00001000) := by
  refine ⟨rfl, fun r => ?_⟩
  revert r
  decide
theorem witness_LfdLoadsTheDoubleword : (with1 3 0x1000).msrFp = true ∧
    ((0x1008#32).toNat : Int) =
      ((if (3 : GprNum) = 0 then 0 else (readGpr (with1 3 0x1000) 3).toNat : Nat) + (8#16).toInt) % 2 ^ 32 ∧
    IsMemory (with1 3 0x1000) (0x1008#32).toNat 8 := by decide
theorem witness_LfduLoadsAndUpdates : (with1 9 0xFFFFFFFF00001020).msrFp = true ∧ (9 : GprNum) ≠ 0 ∧
    ((0x1010#32).toNat : Int) = ((readGpr (with1 9 0xFFFFFFFF00001020) 9).toNat + (-16#16).toInt) % 2 ^ 32 ∧
    IsMemory (with1 9 0xFFFFFFFF00001020) (0x1010#32).toNat 8 := by decide
theorem witness_LfduxLoadsAndUpdates : (with1 5 0x8000000000000808).msrFp = true ∧ (5 : GprNum) ≠ 0 ∧
    (0x1010#32).toNat = ((readGpr (with1 5 0x8000000000000808) 5).toNat +
      (readGpr (with1 5 0x8000000000000808) 5).toNat) % 2 ^ 32 ∧
    IsMemory (with1 5 0x8000000000000808) (0x1010#32).toNat 8 := by decide
theorem witness_LfdxLoadsTheDoubleword : (with1 0 0x1008).msrFp = true ∧
    (0x1008#32).toNat = ((if (0 : GprNum) = 0 then 0 else (readGpr (with1 0 0x1008) 0).toNat) +
      (readGpr (with1 0 0x1008) 0).toNat) % 2 ^ 32 ∧
    IsMemory (with1 0 0x1008) (0x1008#32).toNat 8 := by decide
theorem witness_EveryPatternIsLoadedBitForBit : Ready (.lfd 1 3 8) (with1 3 0x1000) ∧
    ∀ k, k < 8 → (with1 3 0x1000).mem.read ((eaOf (.lfd 1 3 8) (with1 3 0x1000)).toNat + k) =
      (0xC004000000000000#64).extractLsb' (56 - 8 * k) 8 := by decide
/-- An odd address that completes, and each of the two faults. -/
theorem witness_NoAlignmentException : Ready (.lfd 12 8 3) (with1 8 0x1030) ∧
    (eaOf (.lfd 12 8 3) (with1 8 0x1030)).toNat % 8 = 3 ∧
    exec (.lfd 1 3 8) { base with msrFp := false } = .fault .fpUnavailable ∧
    exec (.lfd 1 3 8) (with1 3 0x2000) = .fault (.memFault 0x2008) := by
  refine ⟨by decide, by decide, rfl, rfl⟩
theorem witness_UpdatedRegisterIsTheAddressRead :
    ∃ t, exec (.lfdu 1 4 8) (with1 4 0x1000) = .next t ∧ updatedOf (.lfdu 1 4 8) = some 4 := ⟨_, rfl, rfl⟩
theorem witness_NextInstructionSeesTheUpdatedRegister :
    ∃ t, exec (.lfdux 1 4 5) (with2 4 0x1000 5 0x8) = .next t ∧ updatedOf (.lfdux 1 4 5) = some 4 := ⟨_, rfl, rfl⟩
theorem witness_InvalidFormFollowsThePolicy : base.msrFp = true ∧ base.config.invalidForm = .refuse ∧
    (snap 0x1000).msrFp = true ∧ (snap 0x1000).config.invalidForm = .snapshot ∧ IsMemory (snap 0x1000) (0x1010#32).toNat 8 ∧
    0x1010#32 = (readGpr (snap 0x1000) 0 + (16#16).signExtend 64).extractLsb' 0 32 ∧
    0x1010#32 = (readGpr (snap 0x808) 0 + readGpr (snap 0x808) 0).extractLsb' 0 32 := by decide
/-- The address 0x1010 for every clause: as r5 + 8 with r5 = 0x1008, as r5 + r6, as twice r5 with r5 = 0x808, and as
r5 + r0; and with RA = 0, as the displacement alone. -/
theorem witness_EqualRegisterNumbersAreOrdinary : (5 : Fin 32) ≠ 0 ∧ (with1 5 0x1008).msrFp = true ∧
    IsMemory (with1 5 0x1008) (0x1010#32).toNat 8 ∧
    ((0x1010#32).toNat : Int) = ((readGpr (with1 5 0x1008) 5).toNat + (8#16).toInt) % 2 ^ 32 ∧
    (0x1010#32).toNat = ((readGpr (with2 5 0x1008 6 8) 5).toNat + (readGpr (with2 5 0x1008 6 8) 6).toNat) % 2 ^ 32 ∧
    (0x1010#32).toNat = 2 * (readGpr (with1 5 0x808) 5).toNat % 2 ^ 32 ∧
    (0x1010#32).toNat = ((readGpr (with2 5 0x1008 0 8) 5).toNat + (readGpr (with2 5 0x1008 0 8) 0).toNat) % 2 ^ 32 ∧
    ((0x1010#32).toNat : Int) = (((if (0 : Fin 32) = 0 then 0 else (readGpr (with1 5 0) 0).toNat) : Nat) +
      (0x1010#16).toInt) % 2 ^ 32 := by
  decide
/-- A form that updates nothing and one that updates RA complete. -/
theorem witness_FrameOfTheFamily : (∃ t, exec (.lfdx 6 5 6) (with2 5 0x1000 6 0x30) = .next t) ∧
    ∃ t, exec (.lfdu 1 4 8) (with1 4 0x1000) = .next t := ⟨⟨_, rfl⟩, _, rfl⟩
theorem witness_OnlyListedRegistersAreReadAndWritten :
    (∀ r ∈ readsOf (.lfd 1 0 8), base.gpr[r.val] = (with1 0 5).gpr[r.val]) ∧ base.gpr ≠ (with1 0 5).gpr ∧
    ∃ t, exec (.lfd 1 0 8) (with1 0 5) = .next t := ⟨by decide, by decide, _, rfl⟩
theorem witness_OneFloatingPointRegisterIsWrittenNoneRead :
    ∃ t, exec (.lfdux 1 4 5) (with2 4 0x1000 5 0x8) = .next t := ⟨_, rfl⟩
theorem witness_ProgramCounterAdvancesByFour : fetch (running base 0xC8230008) = .next (.lfd 1 3 8) ∧
    ∀ t, step (running base 0x00000000) ≠ .next t := by
  refine ⟨rfl, fun t h => ?_⟩
  have hr : step (running base 0x00000000) = .refused (.notInScope 0) := rfl
  rw [hr] at h
  cases h
theorem witness_DisabledUnitRaisesFpUnavailable : (running { base with msrFp := false } 0xC8230008).msrFp = false ∧
    fetch (running { base with msrFp := false } 0xC8230008) = .next (.lfd 1 3 8) := ⟨rfl, rfl⟩
/-- Each of the five refusals happens, and a run records one. -/
theorem witness_RefusalsAreTheListedOnes :
    step { base with pc := 0x10001 } = .refused (.pcMisaligned 0x10001) ∧
    step { base with pc := 0xFFFFFFFC } = .refused (.pcWrap 0xFFFFFFFC) ∧
    step (running base 0xD0000000) = .refused (.notInScope 0xD0000000) ∧
    step (running base 0x7C0004AF) = .refused (.reservedBitSet 0x7C0004AF) ∧
    step (running base 0xCCE00010) = .refused (.invalidForm 0xCCE00010) ∧
    (Run.advance 0x10004 (Run.launch (running base 0xCCE00010))).stop = some (.refusal (.invalidForm 0xCCE00010)) :=
  ⟨rfl, rfl, rfl, rfl, rfl, by decide⟩
/-- Each clause of the order, at a boundary: a pc one word below the last, a fetch outside memory, an invalid form with the
unit disabled (the unit's fault comes first) and enabled, a load outside memory. -/
theorem witness_FirstEventIsReported :
    pcRefusal { base with pc := 0xFFFFFFF8 } = none ∧ pcRefusal { highPc with pc := 0xFFFFFFFC } = none ∧
    step { base with pc := 0x20000 } = .fault (.memFault 0x20000) ∧
    step (running { base with msrFp := false } 0xCCE00010) = .fault .fpUnavailable ∧
    step (running base 0xCCE00010) = .refused (.invalidForm 0xCCE00010) ∧
    step (running base 0xC8A07FFF) = .fault (.memFault 0x7FFF) := by
  refine ⟨by decide, by decide, rfl, rfl, rfl, rfl⟩
theorem witness_ProgramCounterNeverWraps :
    ({ base with pc := 0xFFFFFFFC } : State).pc.toNat = 2 ^ base.config.pcWidth.bits - 4 ∧ highPc.pc.toNat % 4 = 0 ∧
    2 ^ 32 ≤ highPc.pc.toNat ∧ ∃ t, step (running base 0xC8400000) = .next t := by
  refine ⟨by decide, by decide, by decide, _, rfl⟩
theorem witness_StepRunsTheDecodedInstruction :
    let s := running base 0xC8230008
    s.pc.toNat % 4 = 0 ∧ s.pc.toNat + 4 < 2 ^ s.config.pcWidth.bits ∧ IsMemory s s.pc.toNat 4 ∧
    decodeBytes [s.mem.read s.pc.toNat, s.mem.read (s.pc.toNat + 1), s.mem.read (s.pc.toNat + 2),
      s.mem.read (s.pc.toNat + 3)] = .ok (.lfd 1 3 8, []) := by decide
/-- At a pc whose word is admitted already, and at one whose word is not. -/
theorem witness_PlacedWordIsRunNext : base.mem.wf = true ∧ pcRefusal base = none ∧
    pcRefusal { base with pc := 0x20000 } = none ∧ admits base.config 0x20000 4 = false := by decide
theorem witness_StepKeepsInv : (running base 0xC8400000).Inv ∧ ∃ t, step (running base 0xC8400000) = .next t :=
  ⟨by decide, _, rfl⟩
/-- A run of one step that completes: the hypothesis of the statements about completed runs. -/
theorem witness_RunKeepsMemoryAndStatus : ∃ t, runSteps 1 (running base 0xC8400000) = .next t := ⟨_, rfl⟩
theorem witness_ControlFallsThrough : ∃ t, runSteps 1 (running base 0xC8400000) = .next t := witness_RunKeepsMemoryAndStatus
theorem witness_FetchNeedsAnAlignedPc : ({ base with pc := 0x10001 } : State).pc.toNat % 4 ≠ 0 ∧
    ∃ t, runSteps 1 (running base 0xC8400000) = .next t := ⟨by decide, witness_RunKeepsMemoryAndStatus⟩
theorem witness_EveryLoadReturnsLaunchMemory : ∃ u, runSteps 0 (running base 0xC8400000) = .next (running base 0xC8400000) ∧
    fetch (running base 0xC8400000) = .next (.lfd 2 0 0) ∧ exec (.lfd 2 0 0) (running base 0xC8400000) = .next u :=
  ⟨_, rfl, rfl, rfl⟩
theorem witness_StopsArePrecise :
    (Run.advances 0x10008 1 (Run.launch (running base 0xC8A07FFF))).stop = some (.fault (.memFault 0x7FFF)) := by decide
/-- A run of one word that ends, and one that stops. -/
theorem witness_RunEndsAfterExactlyItsWords :
    (0x10004 : PcWord).toNat % 4 = 0 ∧ (0x10004 : PcWord).toNat = base.pc.toNat + 4 * 1 ∧
    (Run.advances 0x10004 1 (Run.launch (running base 0xC8400000))).Final 0x10004 ∧
    (Run.advances 0x10004 1 (Run.launch (running base 0xC8A07FFF))).stop ≠ none := by decide

end Sys2Proof.Tests
end

/-! Proofs of the statements about the state (10_state.md), and the lemmas they rest on: the eight bytes of a load as
R34 writes them, the operands of R11, a non-update form's whole result, and when two states run an instruction alike. -/

namespace Sys2Proof.Machine

/-! ### The loaded doubleword -/

theorem Memory.readBE_one (m : Memory) (a : Nat) : m.readBE a 1 = m.read a :=
  BitVec.zero_width_append (0#0) (m.read a)

/-- Reading 8 bytes gives the concatenation that R34 writes out. -/
theorem Memory.readBE_eight (m : Memory) (a : Nat) : m.readBE a 8 = doubleAt m a := by
  rw [doubleAt, ← Memory.readBE_one m a]
  rfl

/-- The value of every floating-point register after an instruction (R15). -/
theorem readFpr_afterLoad (i : Instr) (s : State) (r : FprNum) : readFpr (afterLoad i s) r =
    if r = destOf i then doubleAt s.mem (eaOf i s).toNat else readFpr s r := by
  split
  · next h => rw [h, readFpr_afterLoad_dest, Memory.readBE_eight]
  · next h => exact readFpr_afterLoad_other h

/-! ### The address operands (R11) -/

@[simp] theorem baseRA0_zero (s : State) : baseRA0 s 0 = 0 := if_pos rfl

theorem baseRA0_of_ne_zero (s : State) {ra : GprNum} (h : ra ≠ 0) : baseRA0 s ra = readGpr s ra := if_neg h

/-- A literal zero base leaves the low half of the offset. -/
@[simp] theorem effectiveAddress_zero (offset : Doubleword) :
    effectiveAddress 0 offset = offset.extractLsb' 0 32 := by
  rw [effectiveAddress, zero_add]

theorem eaOf_lfd_ra_zero (s : State) (frt : FprNum) (d : BitVec 16) :
    eaOf (.lfd frt 0 d) s = (displacement d).extractLsb' 0 32 := by
  rw [eaOf, baseRA0_zero, effectiveAddress_zero]

theorem eaOf_lfd_of_ne_zero (s : State) (frt : FprNum) {ra : GprNum} (d : BitVec 16) (h : ra ≠ 0) :
    eaOf (.lfd frt ra d) s = effectiveAddress (readGpr s ra) (displacement d) := by
  rw [eaOf, baseRA0_of_ne_zero s h]

theorem eaOf_lfdx_ra_zero (s : State) (frt : FprNum) (rb : GprNum) :
    eaOf (.lfdx frt 0 rb) s = (indexRB s rb).extractLsb' 0 32 := by
  rw [eaOf, baseRA0_zero, effectiveAddress_zero]

theorem eaOf_lfdx_of_ne_zero (s : State) (frt : FprNum) {ra : GprNum} (rb : GprNum) (h : ra ≠ 0) :
    eaOf (.lfdx frt ra rb) s = effectiveAddress (readGpr s ra) (indexRB s rb) := by
  rw [eaOf, baseRA0_of_ne_zero s h]

/-- `lfd FT, 0(0)` addresses the first byte of memory, whatever the registers hold. -/
theorem eaOf_lfd_absolute_zero (s : State) (frt : FprNum) : eaOf (.lfd frt 0 0) s = 0 := by
  rw [eaOf_lfd_ra_zero]
  decide

/-! ### The whole result of a non-update form -/

/-- The state after a form that updates no general register, in one record. -/
theorem afterLoad_of_no_update {i : Instr} (s : State) (h : updatedOf i = none) : afterLoad i s =
    { s with fpr := s.fpr.set (destOf i).val (doubleAt s.mem (eaOf i s).toNat), pc := nextPc s.config s.pc } := by
  simp only [afterLoad, h, Memory.readBE_eight, advancePc, writeFpr]

/-- A form that updates no general register and is ready has the full result `LoadsInto` asks for. -/
theorem loadsInto_of_ready {i : Instr} {s : State} (h : Ready i s) (hu : updatedOf i = none) :
    LoadsInto s (destOf i) (eaOf i s) (exec i s) := by
  refine ⟨afterLoad i s, exec_of_ready h, ?_, fun hpc => ?_⟩
  · rw [afterLoad_of_no_update s hu]
  · rw [afterLoad_pc, nextPc_toNat, Nat.mod_eq_of_lt hpc]

/-! ### Two states that run an instruction alike -/

/-- MSR.FP, the configuration and the effective address decide how an instruction ends (R77): where two states agree on
them, only the states after a completed load are left to compare. -/
theorem sameOutcome_exec {R : State → State → Prop} {i : Instr} {s s' : State} (hfp : s'.msrFp = s.msrFp)
    (hconfig : s'.config = s.config) (hea : eaOf i s' = eaOf i s)
    (hafter : Ready i s → R (afterLoad i s) (afterLoad i s')) : SameOutcome R (exec i s) (exec i s') := by
  simp only [exec_eq, FormRuns, hfp, hconfig, hea]
  split_ifs with hoff hform hadmit
  · rfl
  · exact hafter ⟨by simpa using hoff, hform, hadmit⟩
  · rfl
  · rfl

/-- No form computes its address from a floating-point register. -/
@[simp] theorem eaOf_with_fpr (i : Instr) (s : State) (f : Vector Doubleword 32) :
    eaOf i { s with fpr := f } = eaOf i s := by cases i <;> rfl

/-- The floating-point registers before an instruction show after it in the floating-point registers alone. -/
theorem afterLoad_with_fpr (i : Instr) (s : State) (f : Vector Doubleword 32) :
    afterLoad i { s with fpr := f } =
      { afterLoad i s with fpr := (afterLoad i { s with fpr := f }).fpr } := by cases i <;> rfl

/-! ### The obligations -/

/-- Settles O14: R11's case distinction on RA, and the load from absolute address 0. -/
theorem registerZeroRole : Obligations.RegisterZeroRole := by
  unfold Obligations.RegisterZeroRole
  intro s frt ra rb d
  refine ⟨eaOf_lfd_ra_zero s frt d, eaOf_lfd_of_ne_zero s frt d, eaOf_lfdx_ra_zero s frt rb,
    eaOf_lfdx_of_ne_zero s frt rb, rfl, rfl, fun hfp hmem => ?_⟩
  have hea := eaOf_lfd_absolute_zero s frt
  have hready : Ready (.lfd frt 0 0) s := ⟨hfp, .inl rfl, by rw [hea]; exact admits_iff.mpr hmem⟩
  have hloads := loadsInto_of_ready hready rfl
  rwa [hea] at hloads

/-- Settles O27: an instruction that completes leaves `afterLoad`, whose every other field is the old one. -/
theorem frameOfTheFamily : Obligations.FrameOfTheFamily := by
  unfold Obligations.FrameOfTheFamily
  intro i s t h
  obtain ⟨-, rfl⟩ := exec_eq_next h
  refine ⟨fun r hr => readGpr_afterLoad_other hr, fun r hr => readFpr_afterLoad_other hr, afterLoad_msrFp i s,
    afterLoad_cr i s, afterLoad_xer i s, afterLoad_fpscr i s, fun k => ?_, afterLoad_config i s, fun a => ?_⟩
  · rw [readVr, afterLoad_vr, readVr]
  · rw [afterLoad_mem]

/-- Settles O29: the writes are those of `readFpr_afterLoad`, and the checks of R77 and the address see no floating-point
register, so another floating-point file changes no outcome. -/
theorem oneFloatingPointRegisterIsWrittenNoneRead : Obligations.OneFloatingPointRegisterIsWrittenNoneRead := by
  unfold Obligations.OneFloatingPointRegisterIsWrittenNoneRead
  refine fun i s => ⟨fun t h r => ?_, fun f => ?_⟩
  · obtain ⟨-, rfl⟩ := exec_eq_next h
    exact readFpr_afterLoad i s r
  · refine sameOutcome_exec rfl rfl (eaOf_with_fpr i s f) fun _ => ⟨afterLoad_with_fpr i s f, ?_⟩
    rw [readFpr_afterLoad_dest, readFpr_afterLoad_dest, eaOf_with_fpr]

end Sys2Proof.Machine

/-! Proofs of the statements about memory (20_memory.md), and the lemmas they rest on: the bytes of a big-endian read,
where an access is defined, a step as the instruction it fetches, and what every step of a run keeps. -/

namespace Sys2Proof.Machine

/-! ### The bytes of a read (R34) -/

/-- The low bits of a slice are a slice from the same position. -/
theorem extractLsb'_zero_extractLsb' {w lo len len' : Nat} (x : BitVec w) (h : len' ≤ len) :
    (x.extractLsb' lo len).extractLsb' 0 len' = x.extractLsb' lo len' := by
  ext k hk
  simp [Nat.lt_of_lt_of_le hk h]

/-- The top `n` bytes of a wider read are the read of `n` bytes: each further byte goes in below. -/
theorem Memory.extractLsb'_readBE_top (m : Memory) (a : Nat) {n N : Nat} (h : n ≤ N) :
    (m.readBE a N).extractLsb' (8 * (N - n)) (8 * n) = m.readBE a n := by
  induction N, h using Nat.le_induction with
  | base => rw [Nat.sub_self, Nat.mul_zero, BitVec.extractLsb'_eq_self]
  | succ N hle ih =>
    calc (m.readBE a N ++ m.read (a + N)).extractLsb' (8 * (N + 1 - n)) (8 * n)
      _ = (m.readBE a N).extractLsb' (8 * (N + 1 - n) - 8) (8 * n) :=
        BitVec.extractLsb'_append_eq_of_le (by omega)
      _ = (m.readBE a N).extractLsb' (8 * (N - n)) (8 * n) := by congr 1; omega
      _ = m.readBE a n := ih

/-- Byte `k` of a read, counted from the top, is the byte at `a + k`: it ends the read of `k + 1` bytes. -/
theorem Memory.extractLsb'_readBE_byte (m : Memory) (a : Nat) {k n : Nat} (h : k < n) :
    (m.readBE a n).extractLsb' (8 * (n - 1 - k)) 8 = m.read (a + k) :=
  calc (m.readBE a n).extractLsb' (8 * (n - 1 - k)) 8
    _ = ((m.readBE a n).extractLsb' (8 * (n - (k + 1))) (8 * (k + 1))).extractLsb' 0 8 := by
      rw [extractLsb'_zero_extractLsb' _ (by omega), Nat.sub_sub, Nat.add_comm 1 k]
    _ = (m.readBE a (k + 1)).extractLsb' 0 8 := by rw [m.extractLsb'_readBE_top a h]
    _ = m.read (a + k) := BitVec.extractLsb'_append_eq_right

/-! ### Where an access is defined (R32) -/

theorem isSome_memRead_iff {s : State} {a : Addr} {n : Nat} :
    (memRead s a n).isSome = true ↔ IsMemory s a.toNat n := by
  rw [← admits_iff]
  cases h : admits s.config a n with
  | false => simp [memRead_of_not_admits h]
  | true => simp [memRead_of_admits h]

/-- An enabled instruction of an allowed form whose 8 bytes are not memory faults at its address. -/
theorem exec_of_not_isMemory {i : Instr} {s : State} (hfp : s.msrFp = true) (hform : FormRuns i s)
    (hmem : ¬ IsMemory s (eaOf i s).toNat 8) : exec i s = .fault (.memFault (eaOf i s)) := by
  rw [exec_eq, if_neg (by simp [hfp]), if_neg (not_not.mpr hform), if_neg (admits_iff.not.mpr hmem)]

/-! ### A step and its fetch -/

/-- Where the fetch answers an instruction, the step is that instruction. -/
theorem step_of_fetch {s : State} {i : Instr} (h : fetch s = .next i) : step s = exec i s := by
  rw [step, h]

/-- Where the pc is refused, so is the step. -/
theorem step_of_pcRefusal {s : State} {r : Refusal} (h : pcRefusal s = some r) : step s = .refused r := by
  rw [step, fetch, h]

/-- Misalignment is the first thing a fetch looks at (R37). -/
theorem pcRefusal_of_misaligned {s : State} (h : s.pc.toNat % 4 ≠ 0) : pcRefusal s = some (.pcMisaligned s.pc) :=
  if_pos h

/-! ### What a run keeps -/

/-- What every step keeps, every run keeps. -/
theorem runSteps_keeps {P : State → Prop} (hstep : ∀ u v, P u → step u = .next v → P v) {n : Nat} {s t : State}
    (h0 : P s) (h : runSteps n s = .next t) : P t := by
  induction n generalizing t with
  | zero => cases h; exact h0
  | succ n ih =>
    obtain ⟨u, hu, hlast⟩ := runSteps_succ_last.mp h
    exact hstep u t (ih hu) hlast

/-- Memory stays the launch memory (R41). -/
theorem runSteps_mem {n : Nat} {s t : State} (h : runSteps n s = .next t) : t.mem = s.mem := by
  refine runSteps_keeps (P := fun u => u.mem = s.mem) (fun u v hu hv => ?_) rfl h
  obtain ⟨-, -, -, -, hmem, -⟩ := step_frame hv
  exact hmem.trans hu

/-- A step that answers leaves an aligned pc: it started at one and added 4. -/
theorem step_pc_aligned {s t : State} (h : step s = .next t) : s.pc.toNat % 4 = 0 ∧ t.pc.toNat % 4 = 0 := by
  obtain ⟨h4, hpc, -⟩ := step_frame h
  exact ⟨h4, by omega⟩

/-! ### The obligations -/

/-- Settles O10: all three clauses are slices of the one big-endian value. -/
theorem memReadIsBigEndian : Obligations.MemReadIsBigEndian := by
  unfold Obligations.MemReadIsBigEndian
  intro s a n v h
  obtain ⟨-, rfl⟩ := memRead_eq_some h
  refine ⟨fun k hk => s.mem.extractLsb'_readBE_byte _ hk, fun w hw => ?_, fun m w hle hw => ?_⟩
  · obtain ⟨-, rfl⟩ := memRead_eq_some hw
    exact s.mem.readBE_eight _
  · obtain ⟨-, rfl⟩ := memRead_eq_some hw
    exact (s.mem.extractLsb'_readBE_top _ hle).symm

/-- Settles O11: admission is what a read asks, and the fault it ends in is recorded in the state before the step. -/
theorem loadOutsideMemoryFaults : Obligations.LoadOutsideMemoryFaults := by
  unfold Obligations.LoadOutsideMemoryFaults
  refine ⟨fun s a n => isSome_memRead_iff, fun i s hfp hform hmem => ?_⟩
  have hexec := exec_of_not_isMemory hfp hform hmem
  exact ⟨hexec, fun endPc hfetch hpc => Run.advance_of_fault rfl hpc ((step_of_fetch hfetch).trans hexec)⟩

/-- Settles O35: the first step of a run aligns its start, the last its end. -/
theorem fetchNeedsAnAlignedPc : Obligations.FetchNeedsAnAlignedPc := by
  unfold Obligations.FetchNeedsAnAlignedPc
  refine ⟨fun s h => step_of_pcRefusal (pcRefusal_of_misaligned h), fun n s t h => ?_⟩
  obtain ⟨u, hfirst, -⟩ := runSteps_succ_eq_next.mp h
  obtain ⟨v, -, hlast⟩ := runSteps_succ_last.mp h
  exact ⟨(step_pc_aligned hfirst).1, (step_pc_aligned hlast).2⟩

/-- Settles O42: the load reads the memory of the state it starts in, which is the launch memory, and appending its step
lengthens the run by one. -/
theorem everyLoadReturnsLaunchMemory : Obligations.EveryLoadReturnsLaunchMemory := by
  unfold Obligations.EveryLoadReturnsLaunchMemory
  intro n s t u i hrun hfetch hexec
  refine ⟨?_, runSteps_succ_last.mpr ⟨t, hrun, (step_of_fetch hfetch).trans hexec⟩⟩
  obtain ⟨-, rfl⟩ := exec_eq_next hexec
  rw [readFpr_afterLoad_dest, Memory.readBE_eight, runSteps_mem hrun]

end Sys2Proof.Machine

/-! Proofs of the statements about encoding (30_encoding.md), and the lemmas they rest on: the fields of a word as
quotients and remainders of its number, the step at a word the decoder rejects, the displacement, the effective address
as a number, and the whole result of each form. -/

namespace Sys2Proof

/-! ### The fields by division (R52, R6) -/

theorem fieldOpcd_eq_iff (iw : InsnWord) (opcd : BitVec 6) : fieldOpcd iw = opcd ↔ iw.toNat / 2 ^ 26 = opcd.toNat := by
  rw [← BitVec.toNat_inj, fieldOpcd, toNat_slice, Nat.mod_eq_of_lt (by omega)]

theorem fieldXo_eq_iff (iw : InsnWord) (xo : BitVec 10) :
    fieldXo iw = xo ↔ iw.toNat / 2 % 2 ^ 10 = xo.toNat := by
  rw [← BitVec.toNat_inj, fieldXo, toNat_slice, pow_one]

theorem fieldRc_eq_zero_iff (iw : InsnWord) : fieldRc iw = 0 ↔ iw.toNat % 2 = 0 := by
  rw [← BitVec.toNat_inj, fieldRc, toNat_slice, pow_zero, Nat.div_one]
  rfl

/-- A register field's number is the remainder by 32 of the word's number, shifted down to the field. -/
theorem regNum_slice (iw : InsnWord) (lo : Nat) :
    regNum (iw.extractLsb' lo 5) = Fin.ofNat 32 (iw.toNat / 2 ^ lo) :=
  Fin.ext (toNat_slice iw lo 5)

theorem fieldD_eq_ofNat (iw : InsnWord) : fieldD iw = BitVec.ofNat 16 iw.toNat := by
  apply BitVec.eq_of_toNat_eq
  rw [fieldD, toNat_slice, BitVec.toNat_ofNat, pow_zero, Nat.div_one]

/-- Settles O3: every test and every field of `decode` is the quotient and remainder of its bit range. -/
theorem decodeIsTheProcedureOfR56 : Obligations.DecodeIsTheProcedureOfR56 := by
  unfold Obligations.DecodeIsTheProcedureOfR56
  intro iw
  simp only [decode, requireRcZero, fieldOpcd_eq_iff, fieldXo_eq_iff, fieldRc_eq_zero_iff, fieldD_eq_ofNat, fieldFrt,
    fieldRa, fieldRb, regNum_slice]
  rfl

/-! ### The words the decoder rejects (R57, R60) -/

theorem decode_of_reservedBit {iw : InsnWord} (hopcd : iw.toNat / 2 ^ 26 = 31)
    (hxo : iw.toNat / 2 % 2 ^ 10 = 599 ∨ iw.toNat / 2 % 2 ^ 10 = 631) (hrc : iw.toNat % 2 = 1) :
    decode iw = .error (.reservedBitSet iw) := by
  rw [decodeIsTheProcedureOfR56 iw, if_neg (by omega), if_neg (by omega)]
  rcases hxo with hlfdx | hlfdux
  · rw [if_pos ⟨hopcd, hlfdx⟩, if_neg (by omega)]
  · rw [if_neg (by omega), if_pos ⟨hopcd, hlfdux⟩, if_neg (by omega)]

theorem decode_of_outOfScope {iw : InsnWord} (hlfd : iw.toNat / 2 ^ 26 ≠ 50) (hlfdu : iw.toNat / 2 ^ 26 ≠ 51)
    (hx : ¬ (iw.toNat / 2 ^ 26 = 31 ∧ (iw.toNat / 2 % 2 ^ 10 = 599 ∨ iw.toNat / 2 % 2 ^ 10 = 631))) :
    decode iw = .error (.notInScope iw) := by
  rw [and_or_left, not_or] at hx
  obtain ⟨hlfdx, hlfdux⟩ := hx
  rw [decodeIsTheProcedureOfR56 iw, if_neg hlfd, if_neg hlfdu, if_neg hlfdx, if_neg hlfdux]

/-! ### The displacement (R54) -/

/-- The displacement of a word of form D is its field D: no other branch of the decoder answers `lfd` or `lfdu`. -/
theorem eq_fieldD_of_decode {iw : InsnWord} {frt : FprNum} {ra : GprNum} {d : BitVec 16}
    (h : decode iw = .ok (.lfd frt ra d) ∨ decode iw = .ok (.lfdu frt ra d)) : d = fieldD iw := by
  unfold decode requireRcZero at h
  split_ifs at h <;> rcases h with h | h <;> cases h <;> rfl

end Sys2Proof

namespace Sys2Proof.Machine

/-- The displacement keeps the 16 bits of D. -/
theorem extractLsb'_displacement (d : BitVec 16) : (displacement d).extractLsb' 0 16 = d := by
  ext k hk
  rw [BitVec.getElem_extractLsb', displacement, BitVec.getLsbD_signExtend, if_pos (by omega)]
  simp [show k < 64 by omega, BitVec.getLsbD_eq_getElem hk]

/-- Every bit of the displacement above D is the sign bit of D. -/
theorem getLsbD_displacement_of_le (d : BitVec 16) {k : Nat} (hlo : 16 ≤ k) (hhi : k < 64) :
    (displacement d).getLsbD k = d.getLsbD 15 := by
  rw [displacement, BitVec.getLsbD_signExtend, if_neg (by omega), BitVec.msb_eq_getLsbD_last]
  simp [hhi]

theorem toInt_displacement (d : BitVec 16) : (displacement d).toInt = d.toInt :=
  BitVec.toInt_signExtend_of_le (by decide)

/-- Settles O9: field D is the low half of the word, and the rest is about sign extension from 16 bits. -/
theorem displacementIsSignExtended : Obligations.DisplacementIsSignExtended := by
  unfold Obligations.DisplacementIsSignExtended
  intro iw frt ra d h
  obtain rfl := eq_fieldD_of_decode h
  refine ⟨?_, extractLsb'_displacement _, fun k hlo hhi => ?_, toInt_displacement _, BitVec.le_toInt _,
    Int.le_of_lt_add_one BitVec.toInt_lt⟩
  · rw [fieldD_eq_ofNat, BitVec.toNat_ofNat]
  · rw [getLsbD_displacement_of_le _ hlo hhi, fieldD]
    simp

/-! ### The step at a word the decoder rejects -/

/-- A fetched word that the decoder rejects is refused, for the decoder's reason (R94). -/
theorem step_of_decode_error {s : State} {iw : InsnWord} {why : Reject} (hpc : pcRefusal s = none)
    (hread : memRead s (fetchAddr s) 4 = some iw) (hdecode : decode iw = .error why) :
    step s = .refused (refusalOf why) := by
  simp only [step, fetch, hpc, hread, hdecode]

/-- Settles O7: the decoder rejects the word for its reserved bit. -/
theorem reservedBitIsRefused : Obligations.ReservedBitIsRefused := by
  unfold Obligations.ReservedBitIsRefused
  intro s iw hpc hread hopcd hxo hrc
  exact step_of_decode_error hpc hread (decode_of_reservedBit hopcd hxo hrc)

/-- Settles O8: the decoder's last branch rejects the word. -/
theorem wordOutOfScopeIsRefused : Obligations.WordOutOfScopeIsRefused := by
  unfold Obligations.WordOutOfScopeIsRefused
  intro s iw hpc hread hlfd hlfdu hx
  exact step_of_decode_error hpc hread (decode_of_outOfScope hlfd hlfdu hx)

/-! ### The invalid forms (R58) -/

theorem formRuns_lfdu_iff {s : State} {frt : FprNum} {ra : GprNum} {d : BitVec 16} :
    FormRuns (.lfdu frt ra d) s ↔ ra ≠ 0 ∨ s.config.invalidForm = .snapshot := by
  simp [FormRuns, Instr.isInvalidForm]

theorem formRuns_lfdux_iff {s : State} {frt : FprNum} {ra rb : GprNum} :
    FormRuns (.lfdux frt ra rb) s ↔ ra ≠ 0 ∨ s.config.invalidForm = .snapshot := by
  simp [FormRuns, Instr.isInvalidForm]

/-- An invalid form under the policy `refuse` is refused with its word. -/
theorem exec_of_invalidForm {i : Instr} {s : State} (hfp : s.msrFp = true) (hform : i.isInvalidForm = true)
    (hpolicy : s.config.invalidForm = .refuse) : exec i s = .refused (.invalidForm (encode i)) := by
  rw [exec_eq, if_neg (by simp [hfp]), if_pos (by simp [FormRuns, hform, hpolicy])]

theorem ready_of_isMemory {i : Instr} {s : State} {ea : Addr} (hfp : s.msrFp = true) (hform : FormRuns i s)
    (hea : eaOf i s = ea) (hmem : IsMemory s ea.toNat 8) : Ready i s :=
  ⟨hfp, hform, admits_iff.mpr (hea ▸ hmem)⟩

/-- What an update form that is ready leaves in FRT and in RA. -/
theorem exec_update_of_ready {i : Instr} {s : State} {ra : GprNum} (h : Ready i s) (hu : updatedOf i = some ra) :
    ∃ t, exec i s = .next t ∧ readFpr t (destOf i) = doubleAt s.mem (eaOf i s).toNat ∧
      readGpr t ra = (eaOf i s).setWidth 64 :=
  ⟨afterLoad i s, exec_of_ready h, by rw [readFpr_afterLoad_dest, Memory.readBE_eight], readGpr_afterLoad_updated hu⟩

/-- Settles O25: with RA = 0 the two update forms are the invalid forms, and the policy alone decides. -/
theorem invalidFormFollowsThePolicy : Obligations.InvalidFormFollowsThePolicy := by
  unfold Obligations.InvalidFormFollowsThePolicy
  refine fun s frt rb d hfp => ⟨fun hrefuse => ?_, fun hsnapshot ea hmem => ⟨?_, ?_⟩⟩
  · exact ⟨exec_of_invalidForm hfp rfl hrefuse, exec_of_invalidForm hfp rfl hrefuse⟩
  · rintro rfl
    exact exec_update_of_ready (ready_of_isMemory (i := .lfdu frt 0 d) hfp (.inr hsnapshot) rfl hmem) rfl
  · rintro rfl
    exact exec_update_of_ready (ready_of_isMemory (i := .lfdux frt 0 rb) hfp (.inr hsnapshot) rfl hmem) rfl

/-! ### The effective address as a number (R75) -/

theorem toNat_effectiveAddress (base offset : Doubleword) :
    (effectiveAddress base offset).toNat = (base.toNat + offset.toNat) % 2 ^ 32 := by
  rw [effectiveAddress, toNat_slice, BitVec.toNat_add]
  omega

/-- A displacement enters the sum with its signed value: modulo 2^32 its 64-bit pattern is that value. -/
theorem toNat_effectiveAddress_displacement (base : Doubleword) (d : BitVec 16) :
    ((effectiveAddress base (displacement d)).toNat : Int) = (base.toNat + d.toInt) % 2 ^ 32 := by
  have hd := BitVec.toInt_eq_toNat_cond (displacement d)
  rw [toInt_displacement] at hd
  rw [toNat_effectiveAddress, hd]
  split <;> omega

theorem toNat_baseRA0 (s : State) (ra : GprNum) :
    (baseRA0 s ra).toNat = if ra = 0 then 0 else (readGpr s ra).toNat := by
  rw [baseRA0, apply_ite BitVec.toNat]
  rfl

/-! ### The whole result of each form (R71 to R74) -/

/-- An update form that is ready has the full result `LoadsAndUpdates` asks for. -/
theorem loadsAndUpdates_of_ready {i : Instr} {s : State} {ra : GprNum} (h : Ready i s) (hu : updatedOf i = some ra) :
    LoadsAndUpdates s (destOf i) ra (eaOf i s) (exec i s) := by
  refine ⟨afterLoad i s, exec_of_ready h, ?_, fun hpc => ?_⟩
  · simp only [afterLoad, hu, Memory.readBE_eight, advancePc, writeGpr, writeFpr, BitVec.ofNat_toNat]
  · rw [afterLoad_pc, nextPc_toNat, Nat.mod_eq_of_lt hpc]

section
variable {s : State} {ea : Addr} {frt : FprNum} {ra rb : GprNum} {d : BitVec 16}

theorem lfd_loadsInto (hfp : s.msrFp = true) (hmem : IsMemory s ea.toNat 8)
    (hea : (ea.toNat : Int) = ((if ra = 0 then 0 else (readGpr s ra).toNat : Nat) + d.toInt) % 2 ^ 32) :
    LoadsInto s frt ea (exec (.lfd frt ra d) s) := by
  rw [← toNat_baseRA0, ← toNat_effectiveAddress_displacement, Int.natCast_inj, BitVec.toNat_inj] at hea
  subst hea
  exact loadsInto_of_ready (ready_of_isMemory (i := .lfd frt ra d) hfp (.inl rfl) rfl hmem) rfl

theorem lfdx_loadsInto (hfp : s.msrFp = true) (hmem : IsMemory s ea.toNat 8)
    (hea : ea.toNat = ((if ra = 0 then 0 else (readGpr s ra).toNat) + (readGpr s rb).toNat) % 2 ^ 32) :
    LoadsInto s frt ea (exec (.lfdx frt ra rb) s) := by
  rw [← toNat_baseRA0, ← toNat_effectiveAddress, BitVec.toNat_inj] at hea
  subst hea
  exact loadsInto_of_ready (ready_of_isMemory (i := .lfdx frt ra rb) hfp (.inl rfl) rfl hmem) rfl

theorem lfdu_loadsAndUpdates (hfp : s.msrFp = true) (hmem : IsMemory s ea.toNat 8)
    (hruns : ra ≠ 0 ∨ s.config.invalidForm = .snapshot)
    (hea : (ea.toNat : Int) = ((readGpr s ra).toNat + d.toInt) % 2 ^ 32) :
    LoadsAndUpdates s frt ra ea (exec (.lfdu frt ra d) s) := by
  rw [← toNat_effectiveAddress_displacement, Int.natCast_inj, BitVec.toNat_inj] at hea
  subst hea
  exact loadsAndUpdates_of_ready
    (ready_of_isMemory (i := .lfdu frt ra d) hfp (formRuns_lfdu_iff.mpr hruns) rfl hmem) rfl

theorem lfdux_loadsAndUpdates (hfp : s.msrFp = true) (hmem : IsMemory s ea.toNat 8)
    (hruns : ra ≠ 0 ∨ s.config.invalidForm = .snapshot)
    (hea : ea.toNat = ((readGpr s ra).toNat + (readGpr s rb).toNat) % 2 ^ 32) :
    LoadsAndUpdates s frt ra ea (exec (.lfdux frt ra rb) s) := by
  rw [← toNat_effectiveAddress, BitVec.toNat_inj] at hea
  subst hea
  exact loadsAndUpdates_of_ready
    (ready_of_isMemory (i := .lfdux frt ra rb) hfp (formRuns_lfdux_iff.mpr hruns) rfl hmem) rfl

end

/-- Settles O26: the full result of each form holds at every three register numbers, so at equal ones too; for RA = RB the
sum is twice the register. -/
theorem equalRegisterNumbersAreOrdinary : Obligations.EqualRegisterNumbersAreOrdinary := by
  unfold Obligations.EqualRegisterNumbersAreOrdinary
  intro s r k d ea hfp hmem
  refine ⟨lfd_loadsInto hfp hmem, lfdu_loadsAndUpdates hfp hmem, lfdux_loadsAndUpdates hfp hmem,
    lfdx_loadsInto hfp hmem, lfdux_loadsAndUpdates hfp hmem, lfdx_loadsInto hfp hmem, fun hruns hea => ?_,
    fun hne hea => ?_, lfdux_loadsAndUpdates hfp hmem, lfdx_loadsInto hfp hmem⟩
  · rw [two_mul] at hea
    exact lfdux_loadsAndUpdates hfp hmem hruns hea
  · rw [two_mul] at hea
    exact lfdx_loadsInto hfp hmem (by rwa [if_neg hne])

end Sys2Proof.Machine

/-! Proofs of the statements about the family's loads (40_fp_load_double.md), and the lemmas they rest on: the address as
a sum of low halves, a value as its bytes, and the pc along a run. -/

namespace Sys2Proof.Machine

/-! ### The effective address is a sum of low halves (R75) -/

/-- Truncation commutes with addition. -/
theorem effectiveAddress_eq_add_lowHalves (base offset : Doubleword) :
    effectiveAddress base offset = base.extractLsb' 0 32 + offset.extractLsb' 0 32 := by
  apply BitVec.eq_of_toNat_eq
  simp only [toNat_effectiveAddress, BitVec.toNat_add, toNat_slice, pow_zero, Nat.div_one, ← Nat.add_mod]

/-- Settles O13: the address is the sum of the low halves, as a number and as a word; the example's base is the literal zero,
so its address is the low half of the displacement -8. -/
theorem effectiveAddressIsTheLowSum : Obligations.EffectiveAddressIsTheLowSum := by
  unfold Obligations.EffectiveAddressIsTheLowSum
  refine ⟨fun base offset => ?_, fun base base' offset offset' hbase hoffset => ?_, fun s => ?_⟩
  · rw [toNat_effectiveAddress, Nat.add_mod]
  · rw [effectiveAddress_eq_add_lowHalves, effectiveAddress_eq_add_lowHalves, hbase, hoffset]
  · rw [eaOf_lfd_ra_zero]
    decide

/-! ### Every pattern the bytes spell is loaded (R76) -/

/-- A value is determined by its bytes: bit `j` is bit `j % 8` of the byte that holds it. -/
theorem eq_of_extractLsb'_bytes_eq {n : Nat} {x y : BitVec (8 * n)}
    (h : ∀ k, k < n → x.extractLsb' (8 * (n - 1 - k)) 8 = y.extractLsb' (8 * (n - 1 - k)) 8) : x = y := by
  apply BitVec.eq_of_getLsbD_eq
  intro j hj
  have hbit := congrArg (·.getLsbD (j % 8)) (h (n - 1 - j / 8) (by omega))
  have hpos : 8 * (n - 1 - (n - 1 - j / 8)) + j % 8 = j := by omega
  simpa [hpos, Nat.mod_lt] using hbit

/-- Eight bytes that spell `p` big-endian are read as `p`. -/
theorem Memory.readBE_eight_of_spells {m : Memory} {a : Nat} {p : Doubleword}
    (h : ∀ k, k < 8 → m.read (a + k) = p.extractLsb' (56 - 8 * k) 8) : m.readBE a 8 = p := by
  refine eq_of_extractLsb'_bytes_eq (n := 8) fun k hk => ?_
  rw [m.extractLsb'_readBE_byte a hk, h k hk, show 56 - 8 * k = 8 * (8 - 1 - k) by omega]

/-- Settles O21: an instruction that is ready completes with the 8 bytes at its address in FRT, and they are read as the
pattern they spell. -/
theorem everyPatternIsLoadedBitForBit : Obligations.EveryPatternIsLoadedBitForBit := by
  unfold Obligations.EveryPatternIsLoadedBitForBit
  intro i s p hready hspells
  refine ⟨afterLoad i s, exec_of_ready hready, ?_, afterLoad_fpscr i s⟩
  rw [readFpr_afterLoad_dest, Memory.readBE_eight_of_spells hspells]

/-! ### Control falls through (R78) -/

/-- Settles O43, by induction on the number of steps: the last step adds 4 to the pc the earlier ones left. -/
theorem controlFallsThrough : Obligations.ControlFallsThrough := by
  unfold Obligations.ControlFallsThrough
  intro n s t h
  induction n generalizing t with
  | zero => cases h; rfl
  | succ n ih =>
    obtain ⟨u, hrun, hlast⟩ := runSteps_succ_last.mp h
    obtain ⟨-, hpc, -⟩ := step_frame hlast
    rw [hpc, ih u hrun, Nat.mul_succ, Nat.add_assoc]

end Sys2Proof.Machine

/-! Proofs of the statements about exceptions and refusals (60_exceptions.md), and the lemmas they rest on: the word of a
decoded instruction, and what a refused pc, a rejected word, a refused fetch, instruction or step each says. -/

namespace Sys2Proof

/-! ### The decoder's answers (R56, R94) -/

theorem requireRcZero_eq_ok {iw : InsnWord} {i j : Instr} (h : requireRcZero iw i = .ok j) :
    fieldRc iw = 0 ∧ i = j := by
  unfold requireRcZero at h
  split at h
  · next hrc => exact ⟨hrc, Except.ok.inj h⟩
  · cases h

theorem requireRcZero_eq_error {iw : InsnWord} {i : Instr} {why : Reject} (h : requireRcZero iw i = .error why) :
    why = .reservedBitSet iw := by
  unfold requireRcZero at h
  split at h
  · cases h
  · exact (Except.error.inj h).symm

/-- A word that decodes is the word of its instruction: the fields the decoder reads spell all of it. -/
theorem encode_of_decode {iw : InsnWord} {i : Instr} (h : decode iw = .ok i) : encode i = iw := by
  unfold decode at h
  split_ifs at h with hlfd hlfdu hlfdx hlfdux
  · cases h
    rw [encode, ← hlfd, formD_of_fields]
  · cases h
    rw [encode, ← hlfdu, formD_of_fields]
  · obtain ⟨hrc, rfl⟩ := requireRcZero_eq_ok h
    obtain ⟨hopcd, hxo⟩ := hlfdx
    rw [encode, ← hopcd, ← hxo, formX_of_fields hrc]
  · obtain ⟨hrc, rfl⟩ := requireRcZero_eq_ok h
    obtain ⟨hopcd, hxo⟩ := hlfdux
    rw [encode, ← hopcd, ← hxo, formX_of_fields hrc]

/-- The decoder has two reasons to reject a word, and either records that word. -/
theorem decode_eq_error {iw : InsnWord} {why : Reject} (h : decode iw = .error why) :
    why = .notInScope iw ∨ why = .reservedBitSet iw := by
  unfold decode at h
  split_ifs at h
  · exact .inr (requireRcZero_eq_error h)
  · exact .inr (requireRcZero_eq_error h)
  · exact .inl (Except.error.inj h).symm

end Sys2Proof

namespace Sys2Proof.Machine

/-! ### What a refusal says of where it arises -/

theorem pcRefusal_eq_some {s : State} {r : Refusal} (h : pcRefusal s = some r) :
    (r = .pcMisaligned s.pc ∧ s.pc.toNat % 4 ≠ 0) ∨
    (r = .pcWrap s.pc ∧ (2 ^ 32 ≤ s.pc.toNat ∨ 2 ^ s.config.pcWidth.bits ≤ s.pc.toNat + 4)) := by
  unfold pcRefusal at h
  split_ifs at h with halign hedge
  · exact .inl ⟨(Option.some.inj h).symm, halign⟩
  · exact .inr ⟨(Option.some.inj h).symm, hedge⟩

/-- A fetch is refused for its pc, or for a word it has read and the decoder rejects. -/
theorem fetch_eq_refused {s : State} {r : Refusal} (h : fetch s = .refused r) :
    pcRefusal s = some r ∨
    ∃ iw why, memRead s (fetchAddr s) 4 = some iw ∧ decode iw = .error why ∧ r = refusalOf why := by
  unfold fetch at h
  split at h
  · next hpc => cases h; exact .inl hpc
  · split at h
    · cases h
    · next iw hread =>
      split at h
      · cases h
      · next why hdecode => cases h; exact .inr ⟨iw, why, hread, hdecode, rfl⟩

/-- The only instructions refused are the invalid forms under the policy `refuse` (R58). -/
theorem exec_eq_refused {i : Instr} {s : State} {r : Refusal} (h : exec i s = .refused r) :
    r = .invalidForm (encode i) ∧ s.config.invalidForm = .refuse ∧ i.isInvalidForm = true := by
  rw [exec_eq] at h
  split_ifs at h with hoff hform
  cases h
  rw [FormRuns, not_or, Bool.not_eq_false] at hform
  obtain ⟨hinvalid, hpolicy⟩ := hform
  refine ⟨rfl, ?_, hinvalid⟩
  cases hp : s.config.invalidForm with
  | refuse => rfl
  | snapshot => exact absurd hp hpolicy

/-- A step is refused at its fetch or by the instruction it fetched. -/
theorem step_eq_refused {s : State} {r : Refusal} (h : step s = .refused r) :
    fetch s = .refused r ∨ ∃ i, fetch s = .next i ∧ exec i s = .refused r := by
  unfold step at h
  split at h
  · next i hfetch => exact .inr ⟨i, hfetch, h⟩
  · cases h
  · next hfetch => cases h; exact .inl hfetch

/-! ### Stops that a run keeps -/

/-- A stopped run stays as it is, however many steps it is given (R94, R98). -/
theorem Run.advances_of_stop {endPc : PcWord} {q : Run} {x : Stop} (h : q.stop = some x) (n : Nat) :
    Run.advances endPc n q = q := by
  induction n with
  | zero => rfl
  | succ n ih => rw [Run.advances, Run.advance_of_stop h, ih]

/-! ### The disabled unit (R90) -/

/-- The disabled unit comes before everything else an instruction checks (R77, R90). -/
theorem exec_of_fpDisabled {s : State} (i : Instr) (h : s.msrFp = false) : exec i s = .fault .fpUnavailable := by
  rw [exec_eq, if_pos h]

/-! ### The obligations -/

/-- Settles O32: a refused step was refused at its pc, at the word it read or at the instruction it decoded, whose word is
the word read; and a stopped run stays stopped. -/
theorem refusalsAreTheListedOnes : Obligations.RefusalsAreTheListedOnes := by
  unfold Obligations.RefusalsAreTheListedOnes
  refine ⟨fun s r h => ?_, fun endPc n q r hstop => ?_⟩
  · obtain hfetch | ⟨i, hfetch, hexec⟩ := step_eq_refused h
    · obtain hpc | ⟨iw, why, hread, hdecode, rfl⟩ := fetch_eq_refused hfetch
      · exact (pcRefusal_eq_some hpc).imp_right .inl
      · have hnone : ∀ i, decode iw ≠ .ok i := by simp [hdecode]
        refine .inr (.inr ⟨iw, hread, ?_⟩)
        obtain rfl | rfl := decode_eq_error hdecode
        · exact .inl ⟨rfl, hnone⟩
        · exact .inr (.inl ⟨rfl, hnone⟩)
    · obtain ⟨-, iw, hread, hdecode⟩ := fetch_eq_next hfetch
      obtain ⟨rfl, hpolicy, hinvalid⟩ := exec_eq_refused hexec
      rw [encode_of_decode hdecode]
      exact .inr (.inr ⟨iw, hread, .inr (.inr ⟨rfl, hpolicy, i, hdecode, hinvalid⟩)⟩)
  · rw [Run.advances_of_stop hstop]
    exact ⟨rfl, by simp [hstop]⟩

/-- Settles O31: the test of MSR.FP is the first of R77, and the fault it ends in is recorded in the state before the
step. -/
theorem disabledUnitRaisesFpUnavailable : Obligations.DisabledUnitRaisesFpUnavailable := by
  unfold Obligations.DisabledUnitRaisesFpUnavailable
  intro i s hfp
  have hexec := exec_of_fpDisabled i hfp
  exact ⟨hexec, fun endPc hfetch hpc => Run.advance_of_fault rfl hpc ((step_of_fetch hfetch).trans hexec)⟩

end Sys2Proof.Machine

/-! Proof of the statement about where a run ends (70_reset_and_hazards.md), and the lemmas it rests on: what a step of a
run that records nothing did, the pc of a run that has recorded nothing, and a run that stands still from some step on. -/

namespace Sys2Proof.Machine

/-- A step of a run, taken before its end, that leaves nothing recorded was a step of the machine: the pc is 4 higher
(R16). -/
theorem Run.pc_of_advance_stop_eq_none {endPc : PcWord} {r : Run} (hpc : r.state.pc ≠ endPc)
    (h : (Run.advance endPc r).stop = none) :
    r.stop = none ∧ (Run.advance endPc r).state.pc.toNat = r.state.pc.toNat + 4 := by
  cases hstop : r.stop with
  | some x => simp [Run.advance_of_stop hstop, hstop] at h
  | none =>
    cases hstep : step r.state with
    | next t =>
      obtain ⟨-, hnext, -⟩ := step_frame hstep
      rw [Run.advance_of_next hstop hpc hstep]
      exact ⟨rfl, hnext⟩
    | fault f => simp [Run.advance_of_fault hstop hpc hstep] at h
    | refused why => simp [Run.advance_of_refused hstop hpc hstep] at h

/-- Towards the end of `n` words no step is taken at `end_pc` before step `n`, so after at most `n` steps a run that has
recorded nothing has its pc 4 higher for each of them. -/
theorem Run.advances_pc {s : State} {endPc : PcWord} {n m : Nat} (hend : endPc.toNat = s.pc.toNat + 4 * n) (hm : m ≤ n)
    (h : (Run.advances endPc m (Run.launch s)).stop = none) :
    (Run.advances endPc m (Run.launch s)).state.pc.toNat = s.pc.toNat + 4 * m := by
  induction m with
  | zero => rfl
  | succ m ih =>
    rw [Run.advances_succ_last] at h ⊢
    by_cases hpc : (Run.advances endPc m (Run.launch s)).state.pc = endPc
    · have hbefore := ih (by omega) (by rwa [Run.advance_of_end hpc] at h)
      rw [hpc] at hbefore
      omega
    · obtain ⟨hstop, hnext⟩ := Run.pc_of_advance_stop_eq_none hpc h
      have hbefore := ih (by omega) hstop
      omega

/-- A run that stands still at step `n` stands still from there on. -/
theorem Run.advances_eq_of_le {endPc : PcWord} {r : Run} {n m : Nat}
    (h : Run.advance endPc (Run.advances endPc n r) = Run.advances endPc n r) (hm : n ≤ m) :
    Run.advances endPc m r = Run.advances endPc n r := by
  induction m, hm using Nat.le_induction with
  | base => rfl
  | succ m _ ih => rw [Run.advances_succ_last, ih, h]

/-- Settles O45: after `n` steps the run has recorded a stop or its pc is `end_pc`, so it stands still from there on; and
before, a run that has recorded nothing has its pc below `end_pc`. -/
theorem runEndsAfterExactlyItsWords : Obligations.RunEndsAfterExactlyItsWords := by
  unfold Obligations.RunEndsAfterExactlyItsWords
  intro s endPc n _ _ hend
  have hbefore : ∀ m, m < n → ¬ (Run.advances endPc m (Run.launch s)).Final endPc := by
    rintro m hm ⟨hstop, hpc⟩
    have hbelow := Run.advances_pc hend hm.le hstop
    rw [hpc] at hbelow
    omega
  cases hstop : (Run.advances endPc n (Run.launch s)).stop with
  | none =>
    have hpc : (Run.advances endPc n (Run.launch s)).state.pc = endPc :=
      BitVec.eq_of_toNat_eq ((Run.advances_pc hend le_rfl hstop).trans hend.symm)
    have hstill : ∀ m, n ≤ m → Run.advances endPc m (Run.launch s) = Run.advances endPc n (Run.launch s) :=
      fun _ => Run.advances_eq_of_le (Run.advance_of_end hpc)
    refine .inl ⟨fun m => ⟨fun hfinal => ?_, fun hm => ?_⟩, hstill⟩
    · exact Nat.le_of_not_lt fun hm => hbefore m hm hfinal
    · rw [hstill m hm]
      exact ⟨hstop, hpc⟩
  | some x =>
    refine .inr ⟨Option.some_ne_none x, fun m hfinal => ?_⟩
    obtain hm | hm := Nat.lt_or_ge m n
    · exact hbefore m hm hfinal
    · rw [Run.advances_eq_of_le (Run.advance_of_stop hstop) hm] at hfinal
      simp [Run.Final, hstop] at hfinal

end Sys2Proof.Machine

/-! Proofs of the statements that the decoder and the encoder are inverse (30_encoding.md), and the lemmas they rest
on: what each row of the opcode map decodes to, what each mask selects, and the bytes of a word. -/

namespace Sys2Proof

/-! ### One equation per row of the decoder (R55, R56) -/

theorem decode_of_opcdLfd {iw : InsnWord} (h : fieldOpcd iw = opcdLfd) :
    decode iw = .ok (.lfd (regNum (fieldFrt iw)) (regNum (fieldRa iw)) (fieldD iw)) :=
  if_pos h

theorem decode_of_opcdLfdu {iw : InsnWord} (h : fieldOpcd iw = opcdLfdu) :
    decode iw = .ok (.lfdu (regNum (fieldFrt iw)) (regNum (fieldRa iw)) (fieldD iw)) := by
  rw [decode, h, if_neg (by decide), if_pos rfl]

theorem decode_of_xoLfdx {iw : InsnWord} (hopcd : fieldOpcd iw = opcdX) (hxo : fieldXo iw = xoLfdx)
    (hrc : fieldRc iw = 0) :
    decode iw = .ok (.lfdx (regNum (fieldFrt iw)) (regNum (fieldRa iw)) (regNum (fieldRb iw))) := by
  rw [decode, hopcd, hxo, if_neg (by decide), if_neg (by decide), if_pos ⟨rfl, rfl⟩, requireRcZero, if_pos hrc]

theorem decode_of_xoLfdux {iw : InsnWord} (hopcd : fieldOpcd iw = opcdX) (hxo : fieldXo iw = xoLfdux)
    (hrc : fieldRc iw = 0) :
    decode iw = .ok (.lfdux (regNum (fieldFrt iw)) (regNum (fieldRa iw)) (regNum (fieldRb iw))) := by
  rw [decode, hopcd, hxo, if_neg (by decide), if_neg (by decide), if_neg (by decide), if_pos ⟨rfl, rfl⟩, requireRcZero,
    if_pos hrc]

/-- The decoder reads back every field the encoder writes. -/
theorem decode_encode (i : Instr) : decode (encode i) = .ok i := by
  cases i with
  | lfd frt ra d =>
    obtain ⟨hopcd, hfrt, hra, hd⟩ := formD_fields opcdLfd frt ra d
    rw [encode, decode_of_opcdLfd hopcd, hfrt, hra, hd]
  | lfdu frt ra d =>
    obtain ⟨hopcd, hfrt, hra, hd⟩ := formD_fields opcdLfdu frt ra d
    rw [encode, decode_of_opcdLfdu hopcd, hfrt, hra, hd]
  | lfdux frt ra rb =>
    obtain ⟨hopcd, hfrt, hra, hrb, hxo, hrc⟩ := formX_fields opcdX frt ra rb xoLfdux
    rw [encode, decode_of_xoLfdux hopcd hxo hrc, hfrt, hra, hrb]
  | lfdx frt ra rb =>
    obtain ⟨hopcd, hfrt, hra, hrb, hxo, hrc⟩ := formX_fields opcdX frt ra rb xoLfdx
    rw [encode, decode_of_xoLfdx hopcd hxo hrc, hfrt, hra, hrb]

/-- Settles O1: the fields of the encoder's word select the instruction's row and are its operands. -/
theorem decodeOfEncodeIsTheInstruction : Obligations.DecodeOfEncodeIsTheInstruction := by
  unfold Obligations.DecodeOfEncodeIsTheInstruction
  exact decode_encode

/-- Settles O2: each branch of the decoder that answers has read every bit of the word. -/
theorem encodeOfDecodeIsTheWord : Obligations.EncodeOfDecodeIsTheWord := by
  unfold Obligations.EncodeOfDecodeIsTheWord
  exact fun _ _ => encode_of_decode

/-! ### What the masks of the rows select (R55) -/

/-- Two concatenations split at the same place are equal exactly when their parts are. -/
theorem concat_inj {n m : Nat} {x x' : BitVec n} {y y' : BitVec m} : x ++ y = x' ++ y' ↔ x = x' ∧ y = y' := by
  refine ⟨fun h => ⟨?_, ?_⟩, fun ⟨hx, hy⟩ => by rw [hx, hy]⟩
  · simpa only [BitVec.extractLsb'_append_eq_left] using congrArg (·.extractLsb' m n) h
  · simpa only [BitVec.extractLsb'_append_eq_right] using congrArg (·.extractLsb' 0 m) h

/-- A row of form D is selected by its primary opcode. -/
theorem and_maskD_eq_iff (iw : InsnWord) (opcd : BitVec 6) :
    iw &&& 0xFC000000 = opcd ++ 0#26 ↔ fieldOpcd iw = opcd := by
  rw [Laws.and_maskD, BitVec.append_left_inj]

/-- A row of form X is selected by its two opcodes and Rc = 0. -/
theorem and_maskX_eq_iff (iw : InsnWord) (opcd : BitVec 6) (xo : BitVec 10) :
    iw &&& 0xFC0007FF = opcd ++ 0#15 ++ xo ++ 0#1 ↔ fieldOpcd iw = opcd ∧ fieldXo iw = xo ∧ fieldRc iw = 0 := by
  rw [Laws.and_maskX, concat_inj, concat_inj, BitVec.append_left_inj, and_assoc]
  rfl

/-- Settles O4: a word under the mask has the opcodes of the row, so that row's branch decodes it; and a word that
decodes is the encoder's, which matches its row. -/
theorem matchAndMaskSelectTheRow : Obligations.MatchAndMaskSelectTheRow := by
  unfold Obligations.MatchAndMaskSelectTheRow
  refine fun iw => ⟨⟨fun h => ?_, ?_⟩, ⟨fun h => ?_, ?_⟩, ⟨fun h => ?_, ?_⟩, ⟨fun h => ?_, ?_⟩⟩
  · exact ⟨_, _, _, decode_of_opcdLfd ((and_maskD_eq_iff iw opcdLfd).mp h)⟩
  · rintro ⟨frt, ra, d, h⟩
    exact encode_of_decode h ▸ Laws.EncodeMatchesRow.lfd frt ra d
  · exact ⟨_, _, _, decode_of_opcdLfdu ((and_maskD_eq_iff iw opcdLfdu).mp h)⟩
  · rintro ⟨frt, ra, d, h⟩
    exact encode_of_decode h ▸ Laws.EncodeMatchesRow.lfdu frt ra d
  · obtain ⟨hopcd, hxo, hrc⟩ := (and_maskX_eq_iff iw opcdX xoLfdx).mp h
    exact ⟨_, _, _, decode_of_xoLfdx hopcd hxo hrc⟩
  · rintro ⟨frt, ra, rb, h⟩
    exact encode_of_decode h ▸ Laws.EncodeMatchesRow.lfdx frt ra rb
  · obtain ⟨hopcd, hxo, hrc⟩ := (and_maskX_eq_iff iw opcdX xoLfdux).mp h
    exact ⟨_, _, _, decode_of_xoLfdux hopcd hxo hrc⟩
  · rintro ⟨frt, ra, rb, h⟩
    exact encode_of_decode h ▸ Laws.EncodeMatchesRow.lfdux frt ra rb

/-! ### Bytes (R35, R50) -/

/-- The byte decoder on the bytes of an instruction's word. -/
theorem decodeBytes_wordBytes (i : Instr) (rest : List Byte) :
    decodeBytes (wordBytes (encode i) ++ rest) = .ok (i, rest) := by
  simp only [wordBytes, List.cons_append, List.nil_append, decodeBytes, wordOfBytes_wordBytes, decode_encode]

/-- The opcode table numbers the bits of a word as the model does. -/
theorem tableWord_toNat (iw : InsnWord) : tableWord 32 iw.toNat = iw := by
  rw [tableWord, Nat.mod_eq_of_lt iw.isLt, BitVec.ofNat_toNat, BitVec.setWidth_eq]

/-- Settles O5: the four bytes spell the word, and the decoder reads the word back. -/
theorem bytesOfAnInstructionDecodeToIt : Obligations.BytesOfAnInstructionDecodeToIt := by
  unfold Obligations.BytesOfAnInstructionDecodeToIt
  refine fun i rest => ⟨decodeBytes_wordBytes i rest, ?_⟩
  have hword := decodeBytes_wordBytes i []
  rw [List.append_nil] at hword
  rw [decodeTableWord, tableWord_toNat, hword]

/-- Settles O6: the words are closed, and the decoder runs on each. -/
theorem specWordsDecodeAsListed : Obligations.SpecWordsDecodeAsListed := by
  unfold Obligations.SpecWordsDecodeAsListed
  decide

end Sys2Proof

/-! Proofs of the statements about what a step keeps and what an instruction depends on (10_state.md), and the lemmas
they rest on: the address as a function of the low halves of the registers read, the general registers after an
instruction, and the steps of two states that differ in general registers alone. -/

namespace Sys2Proof.Machine

/-- Settles O38: a step adds 4 to an aligned pc below the last word of its width and leaves memory alone. -/
theorem stepKeepsInv : Obligations.StepKeepsInv := by
  unfold Obligations.StepKeepsInv
  rintro s t ⟨-, -, hwf⟩ h
  obtain ⟨-, -, hwidth, hconfig, hmem, -⟩ := step_frame h
  exact ⟨(step_pc_aligned h).2, hconfig ▸ hwidth, hmem ▸ hwf⟩

/-- Settles O39: the reset pc is 0 and the reset memory lists nothing. -/
theorem resetMeetsInv : Obligations.ResetMeetsInv := by
  unfold Obligations.ResetMeetsInv
  decide

/-- Settles O40: the three values as `State.reset` holds them. -/
theorem resetHoldsTheDefaults : Obligations.ResetHoldsTheDefaults := by
  unfold Obligations.ResetHoldsTheDefaults
  decide

/-! ### The registers an address depends on (R12, R75) -/

/-- The low half of the RA0 operand is that of the register, where the register is read at all. -/
theorem lowHalf_baseRA0_eq {s s' : State} {ra : GprNum}
    (h : ra ≠ 0 → (readGpr s ra).extractLsb' 0 32 = (readGpr s' ra).extractLsb' 0 32) :
    (baseRA0 s ra).extractLsb' 0 32 = (baseRA0 s' ra).extractLsb' 0 32 := by
  by_cases hra : ra = 0
  · rw [hra, baseRA0_zero, baseRA0_zero]
  · rw [baseRA0_of_ne_zero s hra, baseRA0_of_ne_zero s' hra, h hra]

/-- The effective address depends on the low halves of the registers read, and on nothing else of the state. -/
theorem eaOf_eq_of_lowHalves_eq {i : Instr} {s s' : State}
    (h : ∀ r ∈ readsOf i, (readGpr s r).extractLsb' 0 32 = (readGpr s' r).extractLsb' 0 32) : eaOf i s = eaOf i s' := by
  cases i with
  | lfd frt ra d =>
    have hra : ra ≠ 0 → ra ∈ readsOf (.lfd frt ra d) := fun hne => by simp [readsOf, hne]
    simp only [eaOf, effectiveAddress_eq_add_lowHalves, lowHalf_baseRA0_eq fun hne => h ra (hra hne)]
  | lfdu frt ra d =>
    simp only [eaOf, effectiveAddress_eq_add_lowHalves, baseRA, h ra (by simp [readsOf])]
  | lfdux frt ra rb =>
    simp only [eaOf, effectiveAddress_eq_add_lowHalves, baseRA, indexRB, h ra (by simp [readsOf]),
      h rb (by simp [readsOf])]
  | lfdx frt ra rb =>
    have hra : ra ≠ 0 → ra ∈ readsOf (.lfdx frt ra rb) := fun hne => by simp [readsOf, hne]
    have hrb : rb ∈ readsOf (.lfdx frt ra rb) := by
      rw [readsOf]
      split <;> simp
    simp only [eaOf, effectiveAddress_eq_add_lowHalves, indexRB, lowHalf_baseRA0_eq fun hne => h ra (hra hne), h rb hrb]

/-! ### The general registers after an instruction (R12) -/

/-- The value of every general register after an instruction. -/
theorem readGpr_afterLoad (i : Instr) (s : State) (r : GprNum) : readGpr (afterLoad i s) r =
    if updatedOf i = some r then (eaOf i s).setWidth 64 else readGpr s r := by
  split
  · next h => exact readGpr_afterLoad_updated h
  · next h => exact readGpr_afterLoad_other h

/-- Where the general registers before an instruction leave its address alone, they show after it in the general
registers alone. -/
theorem afterLoad_with_gpr {i : Instr} {s : State} {g : Vector Doubleword 32}
    (h : eaOf i { s with gpr := g } = eaOf i s) :
    afterLoad i { s with gpr := g } = { afterLoad i s with gpr := (afterLoad i { s with gpr := g }).gpr } := by
  rw [State.ext_iff]
  simp only [afterLoad_fpr, afterLoad_pc, afterLoad_msrFp, afterLoad_cr, afterLoad_xer, afterLoad_fpscr, afterLoad_vr,
    afterLoad_mem, afterLoad_config, h, and_self]

/-- Settles O28: the address is the same where the registers read are, and then only the general registers not read
can differ; what is written is `readGpr_afterLoad`. -/
theorem onlyListedRegistersAreReadAndWritten : Obligations.OnlyListedRegistersAreReadAndWritten := by
  unfold Obligations.OnlyListedRegistersAreReadAndWritten
  refine fun i s => ⟨fun g hg => ?_, fun t h r => ?_⟩
  · have hea : eaOf i { s with gpr := g } = eaOf i s :=
      eaOf_eq_of_lowHalves_eq fun r hr => congrArg (·.extractLsb' 0 32) (hg r hr)
    refine sameOutcome_exec rfl rfl hea fun _ => ⟨afterLoad_with_gpr hea, fun r hr => ?_⟩
    rw [readGpr_afterLoad_updated hr, readGpr_afterLoad_updated hr, hea]
  · obtain ⟨-, rfl⟩ := exec_eq_next h
    rw [readGpr_afterLoad, BitVec.ofNat_toNat]

/-! ### Two states that differ in upper halves alone (R75) -/

/-- Where two outcomes are alike, both are next states in the relation, or they are the same stop. -/
theorem SameOutcome.cases {R : State → State → Prop} {e e' : Exec} (h : SameOutcome R e e') :
    (∃ t t', e = .next t ∧ e' = .next t' ∧ R t t') ∨ (∃ f, e = .fault f ∧ e' = .fault f) ∨
      ∃ r, e = .refused r ∧ e' = .refused r := by
  unfold SameOutcome at h
  split at h
  · exact .inl ⟨_, _, rfl, rfl, h⟩
  · exact .inr (.inl ⟨_, rfl, by rw [h]⟩)
  · exact .inr (.inr ⟨_, rfl, by rw [h]⟩)
  · exact h.elim

/-- No fetch reads a general register. -/
theorem fetch_with_gpr (s : State) (g : Vector Doubleword 32) : fetch { s with gpr := g } = fetch s := rfl

/-- An instruction run from two such states ends alike: the address is the same, and RA receives it whole. -/
theorem exec_sameLowHalves (i : Instr) {s s' : State} (h : SameLowHalves s s') :
    SameOutcome SameLowHalves (exec i s) (exec i s') := by
  obtain ⟨hs', hlow⟩ := h
  rw [hs'] at hlow ⊢
  have hea : eaOf i { s with gpr := s'.gpr } = eaOf i s := (eaOf_eq_of_lowHalves_eq fun r _ => hlow r).symm
  refine sameOutcome_exec rfl rfl hea fun _ => ⟨afterLoad_with_gpr hea, fun r => ?_⟩
  rw [readGpr_afterLoad, readGpr_afterLoad, hea]
  split
  · rfl
  · exact hlow r

theorem step_sameLowHalves {s s' : State} (h : SameLowHalves s s') :
    SameOutcome SameLowHalves (step s) (step s') := by
  have hfetch : fetch s' = fetch s := by rw [h.1, fetch_with_gpr]
  rw [step, step, hfetch]
  cases fetch s with
  | next i => exact exec_sameLowHalves i h
  | fault f => rfl
  | refused r => rfl

/-- Settles O15, by induction on the number of steps: the first steps end alike, and where both answer a next state
those again differ in upper halves alone. -/
theorem upperHalvesNeverMatter : Obligations.UpperHalvesNeverMatter := by
  unfold Obligations.UpperHalvesNeverMatter
  intro n
  induction n with
  | zero => exact fun _ _ h => h
  | succ n ih =>
    intro s s' h
    obtain ⟨t, t', hs, hs', ht⟩ | ⟨f, hs, hs'⟩ | ⟨r, hs, hs'⟩ := (step_sameLowHalves h).cases <;>
      simp only [runSteps, hs, hs']
    · exact ih t t' ht
    · rfl
    · rfl

end Sys2Proof.Machine

/-! Proofs of the statements about MemWrite (00_scope.md) and about the instructions' results (40_fp_load_double.md),
and the lemmas they rest on: a big-endian write read back, the effective address of each form as a number, and the
next state of a form that completes, in one record. -/

namespace Sys2Proof.Machine

/-! ### A write read back (R7, R34) -/

/-- A value written big-endian in a canonical memory is read back: its last byte is the last one written, and that
write leaves the bytes before it alone. -/
theorem Memory.readBE_writeBE {m : Memory} (h : m.wf = true) {a n : Nat} (ha : a + n ≤ 2 ^ 32) (v : BitVec (8 * n)) :
    (m.writeBE a n v).readBE a n = v := by
  induction n with
  | zero => exact (BitVec.eq_nil v).symm
  | succ n ih =>
    have hfirst : (m.writeBE a (n + 1) v).readBE a n = v.extractLsb' 8 (8 * n) := by
      rw [← ih (by omega) (v.extractLsb' 8 (8 * n))]
      exact Memory.readBE_congr n fun k hk => Memory.read_write_ne _ _ (by omega)
    have hlast : (m.writeBE a (n + 1) v).read (a + n) = v.extractLsb' 0 8 :=
      Memory.read_write_self (Memory.writeBE_wf h n (by omega) _) _ _
    rw [Memory.readBE, hfirst, hlast]
    exact BitVec.extractLsb'_append_extractLsb'

/-- A MemWrite that succeeds was admitted, and writes memory alone. -/
theorem memWrite_eq_some {s t : State} {a : Addr} {n : Nat} {v : BitVec (8 * n)} (h : memWrite s a n v = some t) :
    admits s.config a n = true ∧ t = { s with mem := s.mem.writeBE a.toNat n v } := by
  unfold memWrite at h
  split at h
  · next hadmits => exact ⟨hadmits, (Option.some.inj h).symm⟩
  · cases h

/-- Settles O12: the read is admitted where the write was, and gives the bytes written. -/
theorem memReadAfterMemWrite : Obligations.MemReadAfterMemWrite := by
  unfold Obligations.MemReadAfterMemWrite
  intro s t a n v hwf hwrite
  obtain ⟨hadmits, rfl⟩ := memWrite_eq_some hwrite
  obtain ⟨htop, -⟩ := admits_iff.mp hadmits
  refine ⟨?_, fun k hk => Memory.read_writeBE_ne _ n v hk⟩
  rw [memRead, if_pos hadmits, Memory.readBE_writeBE hwf htop]

/-! ### The effective address of each form as a number (R71 to R75) -/

theorem toNat_eaOf_lfd (s : State) (frt : FprNum) (ra : GprNum) (d : BitVec 16) :
    ((eaOf (.lfd frt ra d) s).toNat : Int) =
      ((if ra = 0 then 0 else (readGpr s ra).toNat : Nat) + d.toInt) % 2 ^ 32 := by
  rw [eaOf, toNat_effectiveAddress_displacement, toNat_baseRA0]

theorem toNat_eaOf_lfdu (s : State) (frt : FprNum) (ra : GprNum) (d : BitVec 16) :
    ((eaOf (.lfdu frt ra d) s).toNat : Int) = ((readGpr s ra).toNat + d.toInt) % 2 ^ 32 :=
  toNat_effectiveAddress_displacement _ d

theorem toNat_eaOf_lfdux (s : State) (frt : FprNum) (ra rb : GprNum) :
    (eaOf (.lfdux frt ra rb) s).toNat = ((readGpr s ra).toNat + (readGpr s rb).toNat) % 2 ^ 32 :=
  toNat_effectiveAddress _ _

theorem toNat_eaOf_lfdx (s : State) (frt : FprNum) (ra rb : GprNum) :
    (eaOf (.lfdx frt ra rb) s).toNat =
      ((if ra = 0 then 0 else (readGpr s ra).toNat) + (readGpr s rb).toNat) % 2 ^ 32 := by
  rw [eaOf, toNat_effectiveAddress, toNat_baseRA0, indexRB]

/-! ### The next state of a form that completes, in one record -/

/-- The state after a form that updates RA, in one record. -/
theorem afterLoad_of_update {i : Instr} (s : State) {ra : GprNum} (h : updatedOf i = some ra) : afterLoad i s =
    { s with fpr := s.fpr.set (destOf i).val (doubleAt s.mem (eaOf i s).toNat),
             gpr := s.gpr.set ra.val (BitVec.ofNat 64 (eaOf i s).toNat), pc := nextPc s.config s.pc } := by
  simp only [afterLoad, h, Memory.readBE_eight, BitVec.ofNat_toNat, advancePc, writeGpr, writeFpr]

section
variable {i : Instr} {s : State} {ea : Addr} (hfp : s.msrFp = true) (hform : FormRuns i s) (hea : eaOf i s = ea)
  (hmem : IsMemory s ea.toNat 8)
include hfp hform hea hmem

theorem exec_of_no_update (hu : updatedOf i = none) : exec i s =
    .next { s with fpr := s.fpr.set (destOf i).val (doubleAt s.mem ea.toNat), pc := nextPc s.config s.pc } := by
  rw [exec_of_ready (ready_of_isMemory hfp hform hea hmem), afterLoad_of_no_update s hu, hea]

theorem exec_of_update {ra : GprNum} (hu : updatedOf i = some ra) : exec i s =
    .next { s with fpr := s.fpr.set (destOf i).val (doubleAt s.mem ea.toNat),
                   gpr := s.gpr.set ra.val (BitVec.ofNat 64 ea.toNat), pc := nextPc s.config s.pc } := by
  rw [exec_of_ready (ready_of_isMemory hfp hform hea hmem), afterLoad_of_update s hu, hea]

end

/-- Settles O16: the address is the sum of R71, and no general register changes. -/
theorem lfdLoadsTheDoubleword : Obligations.LfdLoadsTheDoubleword := by
  unfold Obligations.LfdLoadsTheDoubleword
  intro frt ra d s ea hfp hsum hmem
  have hea : eaOf (.lfd frt ra d) s = ea :=
    BitVec.eq_of_toNat_eq (Int.natCast_inj.mp ((toNat_eaOf_lfd s frt ra d).trans hsum.symm))
  exact exec_of_no_update hfp (.inl rfl) hea hmem rfl

/-- Settles O17: the address is the sum of R72, and RA receives it. -/
theorem lfduLoadsAndUpdates : Obligations.LfduLoadsAndUpdates := by
  unfold Obligations.LfduLoadsAndUpdates
  intro frt ra d s ea hfp hruns hsum hmem
  have hea : eaOf (.lfdu frt ra d) s = ea :=
    BitVec.eq_of_toNat_eq (Int.natCast_inj.mp ((toNat_eaOf_lfdu s frt ra d).trans hsum.symm))
  exact exec_of_update hfp (formRuns_lfdu_iff.mpr hruns) hea hmem rfl

/-- Settles O18: the address is the sum of R73, and RA receives it. -/
theorem lfduxLoadsAndUpdates : Obligations.LfduxLoadsAndUpdates := by
  unfold Obligations.LfduxLoadsAndUpdates
  intro frt ra rb s ea hfp hruns hsum hmem
  have hea : eaOf (.lfdux frt ra rb) s = ea :=
    BitVec.eq_of_toNat_eq ((toNat_eaOf_lfdux s frt ra rb).trans hsum.symm)
  exact exec_of_update hfp (formRuns_lfdux_iff.mpr hruns) hea hmem rfl

/-- Settles O19: the address is the sum of R74, and no general register changes. -/
theorem lfdxLoadsTheDoubleword : Obligations.LfdxLoadsTheDoubleword := by
  unfold Obligations.LfdxLoadsTheDoubleword
  intro frt ra rb s ea hfp hsum hmem
  have hea : eaOf (.lfdx frt ra rb) s = ea :=
    BitVec.eq_of_toNat_eq ((toNat_eaOf_lfdx s frt ra rb).trans hsum.symm)
  exact exec_of_no_update hfp (.inl rfl) hea hmem rfl

/-! ### When an instruction completes, and when it faults -/

/-- Settles O20: `Ready` is exactly what completion asks, its admission spelt out. -/
theorem instructionCompletesExactlyWhenReady : Obligations.InstructionCompletesExactlyWhenReady := by
  unfold Obligations.InstructionCompletesExactlyWhenReady
  refine fun i s => ⟨fun ⟨t, h⟩ => ?_, fun ⟨hfp, hform, hmem⟩ => ?_⟩
  · obtain ⟨⟨hfp, hform, hadmits⟩, -⟩ := exec_eq_next h
    exact ⟨hfp, hform, admits_iff.mp hadmits⟩
  · exact ⟨_, exec_of_ready ⟨hfp, hform, admits_iff.mpr hmem⟩⟩

/-- The two faults of an instruction, each with its cause (R90, R93). -/
theorem exec_eq_fault {i : Instr} {s : State} {f : Fault} (h : exec i s = .fault f) :
    (f = .fpUnavailable ∧ s.msrFp = false) ∨ (f = .memFault (eaOf i s) ∧ ¬ IsMemory s (eaOf i s).toNat 8) := by
  rw [exec_eq] at h
  split_ifs at h with hoff hform hadmits
  · cases h
    exact .inl ⟨rfl, hoff⟩
  · cases h
    exact .inr ⟨rfl, admits_iff.not.mp hadmits⟩

/-- The doubleword at the address is in FRT afterwards. -/
theorem readFpr_afterLoad_dest_eq_doubleAt (i : Instr) (s : State) :
    readFpr (afterLoad i s) (destOf i) = doubleAt s.mem (eaOf i s).toNat := by
  rw [readFpr_afterLoad, if_pos rfl]

/-- Settles O22: readiness asks nothing of the address's alignment, and no fault of an instruction is about it. -/
theorem noAlignmentException : Obligations.NoAlignmentException := by
  unfold Obligations.NoAlignmentException
  refine ⟨fun i s hfp hform hmem => ?_, fun i s f => exec_eq_fault⟩
  exact ⟨afterLoad i s, exec_of_ready ⟨hfp, hform, admits_iff.mpr hmem⟩, readFpr_afterLoad_dest_eq_doubleAt i s⟩

/-! ### The updated register (R12, R112) -/

/-- After an update form RA is worth the address that was read. -/
theorem toNat_readGpr_afterLoad_updated {i : Instr} {s : State} {ra : GprNum} (h : updatedOf i = some ra) :
    (readGpr (afterLoad i s) ra).toNat = (eaOf i s).toNat := by
  rw [readGpr_afterLoad_updated h, BitVec.toNat_setWidth_of_le (by decide)]

/-- Settles O23: RA is the 32-bit address zero-extended to 64 bits. -/
theorem updatedRegisterIsTheAddressRead : Obligations.UpdatedRegisterIsTheAddressRead := by
  unfold Obligations.UpdatedRegisterIsTheAddressRead
  intro i s t ra h hu
  obtain ⟨-, rfl⟩ := exec_eq_next h
  have hra := toNat_readGpr_afterLoad_updated (s := s) hu
  refine ⟨BitVec.eq_of_toNat_eq ?_, BitVec.eq_of_toNat_eq ?_, ?_⟩
  · rw [toNat_slice, hra, Nat.div_eq_of_lt (eaOf i s).isLt]
    rfl
  · rw [toNat_slice, hra, pow_zero, Nat.div_one, Nat.mod_eq_of_lt (eaOf i s).isLt]
  · rw [hra, readFpr_afterLoad_dest_eq_doubleAt]

/-- Settles O24: the next instruction's address is the sum of its operands, read in a state where RA is worth the
address and every other register what it was. -/
theorem nextInstructionSeesTheUpdatedRegister : Obligations.NextInstructionSeesTheUpdatedRegister := by
  unfold Obligations.NextInstructionSeesTheUpdatedRegister
  intro i s t ra h hu frt rb d a a0 b b0
  obtain ⟨-, rfl⟩ := exec_eq_next h
  have hra : (readGpr (afterLoad i s) ra).toNat = a := toNat_readGpr_afterLoad_updated hu
  have hrb : (readGpr (afterLoad i s) rb).toNat = b := by
    by_cases hr : rb = ra
    · rw [hr, hra]
      exact (if_pos hr).symm
    · rw [readGpr_afterLoad_other fun h' => hr (Option.some.inj (h'.symm.trans hu))]
      exact (if_neg hr).symm
  rw [toNat_eaOf_lfdu, toNat_eaOf_lfd, toNat_eaOf_lfdux, toNat_eaOf_lfdux, toNat_eaOf_lfdx, toNat_eaOf_lfdx, hra, hrb]
  exact ⟨rfl, rfl, rfl, rfl, rfl, rfl⟩

end Sys2Proof.Machine

/-! Proofs of the statements about steps and their stops (00_scope.md, 10_state.md, 60_exceptions.md), and the lemmas
they rest on: the fetch in each of its cases, what a step of a run can do, the pc as no operand, and a word placed at
the pc. -/

namespace Sys2Proof.Machine

/-! ### The fetch, case by case (R17, R35, R37) -/

/-- A pc that is refused for its size is refused as `PcWrap`, once it is aligned (R17). -/
theorem pcRefusal_of_edge {s : State} (halign : s.pc.toNat % 4 = 0)
    (hedge : 2 ^ 32 ≤ s.pc.toNat ∨ 2 ^ s.config.pcWidth.bits ≤ s.pc.toNat + 4) :
    pcRefusal s = some (.pcWrap s.pc) := by
  rw [pcRefusal, if_neg (not_not.mpr halign), if_pos hedge]

theorem fetchAddr_eq_ofNat (s : State) : fetchAddr s = BitVec.ofNat 32 s.pc.toNat :=
  (BitVec.ofNat_toNat 32 s.pc).symm

/-- Below 2^32 the address fetched is the pc. -/
theorem toNat_fetchAddr {s : State} (h : s.pc.toNat < 2 ^ 32) : (fetchAddr s).toNat = s.pc.toNat := by
  rw [fetchAddr_eq_ofNat, BitVec.toNat_ofNat, Nat.mod_eq_of_lt h]

theorem toNat_fetchAddr_of_fetchable {s : State} (h : pcRefusal s = none) : (fetchAddr s).toNat = s.pc.toNat := by
  obtain ⟨-, hspace, -⟩ := pcRefusal_eq_none.mp h
  exact toNat_fetchAddr hspace

/-- A fetch outside memory faults at the pc (log 7). -/
theorem step_of_fetch_not_isMemory {s : State} (hpc : pcRefusal s = none) (hmem : ¬ IsMemory s s.pc.toNat 4) :
    step s = .fault (.memFault (fetchAddr s)) := by
  rw [← toNat_fetchAddr_of_fetchable hpc, ← admits_iff, Bool.not_eq_true] at hmem
  simp only [step, fetch, hpc, memRead_of_not_admits hmem]

/-- A step at a fetchable pc runs the instruction that the word read decodes to. -/
theorem step_of_decode {s : State} {iw : InsnWord} {i : Instr} (hpc : pcRefusal s = none)
    (hread : memRead s (fetchAddr s) 4 = some iw) (hdecode : decode iw = .ok i) : step s = exec i s := by
  simp only [step, fetch, hpc, hread, hdecode]

/-- Settles O33: each clause is the lemma of its event, the events before it excluded by its hypotheses. -/
theorem firstEventIsReported : Obligations.FirstEventIsReported := by
  unfold Obligations.FirstEventIsReported
  refine fun s => ⟨fun h => step_of_pcRefusal (pcRefusal_of_misaligned h), fun halign hedge =>
    step_of_pcRefusal (pcRefusal_of_edge halign hedge), fun halign hspace hwidth => ?_⟩
  have hpc : pcRefusal s = none := pcRefusal_eq_none.mpr ⟨halign, hspace, hwidth⟩
  refine ⟨fun hmem => ?_, fun iw why hread hdecode => step_of_decode_error hpc hread hdecode,
    fun iw i hread hdecode => ?_⟩
  · rw [step_of_fetch_not_isMemory hpc hmem, fetchAddr_eq_ofNat]
  · rw [step_of_decode hpc hread hdecode, ← encode_of_decode hdecode]
    exact ⟨exec_of_fpDisabled i, exec_of_invalidForm, exec_of_not_isMemory⟩

/-- Settles O34: at its last word and above 0xFFFFFFFF an aligned pc is refused, and elsewhere 4 more stays below
2^PC_BITS. -/
theorem programCounterNeverWraps : Obligations.ProgramCounterNeverWraps := by
  unfold Obligations.ProgramCounterNeverWraps
  refine ⟨fun s halign => ⟨fun hlast => ?_, fun hspace => ?_⟩, fun s t h => ?_⟩
  · exact step_of_pcRefusal (pcRefusal_of_edge halign (.inr (by omega)))
  · exact step_of_pcRefusal (pcRefusal_of_edge halign (.inl hspace))
  · obtain ⟨-, hnext, hwidth, -⟩ := step_frame h
    exact ⟨hnext, hwidth, (step_pc_aligned h).2⟩

/-! ### A step of a run (R8, R94, R98) -/

/-- The step from a state ends abnormally, with the event that a run records. -/
def StepStops (s : State) (x : Stop) : Prop :=
  (∃ f, step s = .fault f ∧ x = .fault f) ∨ (∃ r, step s = .refused r ∧ x = .refusal r)

/-- All that a step of a run can do: stand still, take a step of the machine, or record how that step ended and leave
the state. -/
theorem Run.advance_cases (endPc : PcWord) (r : Run) : Run.advance endPc r = r ∨ r.stop = none ∧
    ((∃ t, step r.state = .next t ∧ Run.advance endPc r = { state := t, stop := none }) ∨
      ∃ x, StepStops r.state x ∧ Run.advance endPc r = { state := r.state, stop := some x }) := by
  cases hstop : r.stop with
  | some x => exact .inl (Run.advance_of_stop hstop)
  | none =>
    by_cases hpc : r.state.pc = endPc
    · exact .inl (Run.advance_of_end hpc)
    · refine .inr ⟨rfl, ?_⟩
      cases hstep : step r.state with
      | next t => exact .inl ⟨t, rfl, Run.advance_of_next hstop hpc hstep⟩
      | fault f => exact .inr ⟨_, .inl ⟨f, hstep, rfl⟩, Run.advance_of_fault hstop hpc hstep⟩
      | refused why => exact .inr ⟨_, .inr ⟨why, hstep, rfl⟩, Run.advance_of_refused hstop hpc hstep⟩

/-! ### The pc is no operand (R16) -/

@[simp] theorem eaOf_with_pc (i : Instr) (s : State) (p : PcWord) : eaOf i { s with pc := p } = eaOf i s := by
  cases i <;> rfl

/-- The pc before an instruction shows after it in the pc alone. -/
theorem afterLoad_with_pc (i : Instr) (s : State) (p : PcWord) :
    afterLoad i { s with pc := p } = { afterLoad i s with pc := (afterLoad i { s with pc := p }).pc } := by
  cases i <;> rfl

/-- Settles O30: the fetch reads at the pc, `afterLoad` adds 4 to it, nothing else of `afterLoad` depends on it, and a
stop leaves the state. -/
theorem programCounterAdvancesByFour : Obligations.ProgramCounterAdvancesByFour := by
  unfold Obligations.ProgramCounterAdvancesByFour
  refine ⟨fun s i h => ?_, fun i s t h => ?_, fun i s p => ?_, fun s endPc h => ?_⟩
  · obtain ⟨hpc, iw, hread, hdecode⟩ := fetch_eq_next h
    exact ⟨iw, hread, toNat_fetchAddr_of_fetchable hpc, hdecode⟩
  · obtain ⟨-, rfl⟩ := exec_eq_next h
    rw [afterLoad_pc, nextPc_toNat]
  · exact sameOutcome_exec rfl rfl (eaOf_with_pc i s p) fun _ => afterLoad_with_pc i s p
  · obtain hstill | ⟨-, ⟨t, hnext, -⟩ | ⟨x, -, hstops⟩⟩ := Run.advance_cases endPc (Run.launch s)
    · rw [hstill, Run.launch_state]
    · exact absurd hnext (h t)
    · rw [hstops, Run.launch_state]

/-! ### A step as the instruction its bytes decode to (R8, R35) -/

/-- The four bytes at an address, put together, are the word read there. -/
theorem Memory.readBE_four (m : Memory) (a : Nat) :
    m.readBE a 4 = wordOfBytes (m.read a) (m.read (a + 1)) (m.read (a + 2)) (m.read (a + 3)) := by
  rw [wordOfBytes, ← Memory.readBE_one m a]
  rfl

/-- Four bytes that decode to an instruction spell a word that does. -/
theorem decode_of_decodeBytes {b0 b1 b2 b3 : Byte} {i : Instr}
    (h : decodeBytes [b0, b1, b2, b3] = .ok (i, [])) : decode (wordOfBytes b0 b1 b2 b3) = .ok i := by
  rw [decodeBytes] at h
  split at h
  · next hdecode => cases h; exact hdecode
  · cases h

/-- Settles O36: the bytes at the pc are the word the fetch reads. -/
theorem stepRunsTheDecodedInstruction : Obligations.StepRunsTheDecodedInstruction := by
  unfold Obligations.StepRunsTheDecodedInstruction
  intro s i halign hwidth hmem hbytes
  have htop : s.pc.toNat + 4 ≤ 2 ^ 32 := hmem.1
  have hpc : pcRefusal s = none := pcRefusal_eq_none.mpr ⟨halign, by omega, hwidth⟩
  have haddr := toNat_fetchAddr_of_fetchable hpc
  refine step_of_decode hpc (memRead_of_admits (admits_iff.mpr (haddr ▸ hmem))) ?_
  rw [haddr, Memory.readBE_four]
  exact decode_of_decodeBytes hbytes

/-! ### A word placed at the pc (R35, R111) -/

theorem withFetchWord_encode (s : State) (i : Instr) :
    s.withFetchWord 32 (encode i).toNat = placeWord s (encode i) := by
  rw [State.withFetchWord, tableWord_toNat]

/-- Admitting a word changes the list of admitted accesses alone. -/
theorem admitWord_eq_with_admitted (c : Config) (addr : Addr) :
    admitWord c addr = { c with admitted := (admitWord c addr).admitted } := by
  unfold admitWord
  split <;> rfl

theorem admitWord_pcWidth (c : Config) (addr : Addr) : (admitWord c addr).pcWidth = c.pcWidth := by
  rw [admitWord_eq_with_admitted]

theorem pcRefusal_placeWord (s : State) (iw : InsnWord) : pcRefusal (placeWord s iw) = pcRefusal s := by
  simp only [pcRefusal, placeWord, admitWord_pcWidth]

/-- The word at a fetchable pc lies below the top of the space: the pc is a multiple of 4. -/
theorem fetchAddr_add_four_le {s : State} (h : pcRefusal s = none) : (fetchAddr s).toNat + 4 ≤ 2 ^ 32 := by
  have haddr := toNat_fetchAddr_of_fetchable h
  obtain ⟨halign, hspace, -⟩ := pcRefusal_eq_none.mp h
  omega

/-- The word placed is the word the fetch reads. -/
theorem memRead_placeWord {s : State} (hwf : s.mem.wf = true) (hpc : pcRefusal s = none) (iw : InsnWord) :
    memRead (placeWord s iw) (fetchAddr (placeWord s iw)) 4 = some iw := by
  have htop := fetchAddr_add_four_le hpc
  have hadmits : admits (placeWord s iw).config (fetchAddr s) 4 = true :=
    admits_iff.mpr ⟨htop, (admitPredicate_admitWord _ _).mpr (.inr ⟨rfl, rfl⟩)⟩
  refine (memRead_of_admits hadmits).trans (congrArg some ?_)
  exact Memory.readBE_writeBE hwf htop iw

/-- Settles O37: the fetch reads the word placed, and placing it writes its four bytes and admits that one access. -/
theorem placedWordIsRunNext : Obligations.PlacedWordIsRunNext := by
  unfold Obligations.PlacedWordIsRunNext
  intro s i hwf hpc
  rw [withFetchWord_encode]
  intro p
  have haddr := toNat_fetchAddr_of_fetchable hpc
  refine ⟨?_, Memory.writeBE_wf hwf 4 (fetchAddr_add_four_le hpc) _, rfl, admitWord_eq_with_admitted _ _,
    fun a n => ?_, fun k hk => ?_⟩
  · exact step_of_decode ((pcRefusal_placeWord s _).trans hpc) (memRead_placeWord hwf hpc _) (decode_encode i)
  · rw [← haddr]
    exact admitPredicate_admitWord a n
  · rw [← haddr] at hk
    exact Memory.read_writeBE_ne _ 4 _ hk

end Sys2Proof.Machine

/-! Proofs of the statements about runs (20_memory.md, 60_exceptions.md), and the lemmas they rest on: all that a run
can change, and the complete steps that lead to where a run stands. -/

namespace Sys2Proof.Machine

/-! ### All that a run changes -/

/-- An instruction changes registers of the two files and the pc, and nothing else (R23). -/
theorem afterLoad_eq_with (i : Instr) (s : State) : afterLoad i s =
    { s with gpr := (afterLoad i s).gpr, fpr := (afterLoad i s).fpr, pc := (afterLoad i s).pc } := by
  cases i <;> rfl

theorem step_eq_with {s t : State} (h : step s = .next t) : t = { s with gpr := t.gpr, fpr := t.fpr, pc := t.pc } := by
  obtain ⟨i, -, hexec⟩ := step_eq_next h
  obtain ⟨-, rfl⟩ := exec_eq_next hexec
  exact afterLoad_eq_with i s

theorem runSteps_eq_with {n : Nat} {s t : State} (h : runSteps n s = .next t) :
    t = { s with gpr := t.gpr, fpr := t.fpr, pc := t.pc } := by
  refine runSteps_keeps (P := fun u => u = { s with gpr := u.gpr, fpr := u.fpr, pc := u.pc }) (fun u v hu hv => ?_)
    rfl h
  rw [step_eq_with hv, hu]

/-- Settles O41: a run changes the two register files and the pc alone, so the fetch at its end reads the launch
memory under the launch configuration. -/
theorem runKeepsMemoryAndStatus : Obligations.RunKeepsMemoryAndStatus := by
  unfold Obligations.RunKeepsMemoryAndStatus
  intro n s t h
  rw [runSteps_eq_with h]
  exact ⟨rfl, rfl, rfl, rfl, rfl, rfl, rfl, rfl⟩

/-! ### The stop of a run -/

/-- A run that has recorded nothing stands where some number of complete steps from its launch lead. -/
theorem Run.advances_of_stop_eq_none {endPc : PcWord} {n : Nat} {s : State}
    (h : (Run.advances endPc n (Run.launch s)).stop = none) :
    ∃ k, k ≤ n ∧ runSteps k s = .next (Run.advances endPc n (Run.launch s)).state := by
  induction n with
  | zero => exact ⟨0, le_rfl, rfl⟩
  | succ n ih =>
    rw [Run.advances_succ_last] at h ⊢
    obtain hstill | ⟨hnone, ⟨t, hnext, hstep⟩ | ⟨x, -, hstep⟩⟩ :=
      Run.advance_cases endPc (Run.advances endPc n (Run.launch s))
    · rw [hstill] at h ⊢
      obtain ⟨k, hk, hrun⟩ := ih h
      exact ⟨k, by omega, hrun⟩
    · obtain ⟨k, hk, hrun⟩ := ih hnone
      rw [hstep]
      exact ⟨k + 1, by omega, runSteps_succ_last.mpr ⟨_, hrun, hnext⟩⟩
    · rw [hstep] at h
      cases h

/-- Settles O44, by induction on the number of steps: the last step either stood still, the stop recorded before it,
or recorded the stop in the state that the complete steps before it gave. -/
theorem stopsArePrecise : Obligations.StopsArePrecise := by
  unfold Obligations.StopsArePrecise
  intro endPc n s x h
  induction n with
  | zero => cases h
  | succ n ih =>
    rw [Run.advances_succ_last] at h ⊢
    obtain hstill | ⟨hnone, ⟨t, -, hstep⟩ | ⟨y, hstops, hstep⟩⟩ :=
      Run.advance_cases endPc (Run.advances endPc n (Run.launch s))
    · rw [hstill] at h ⊢
      obtain ⟨k, u, hk, hrest⟩ := ih h
      exact ⟨k, u, by omega, hrest⟩
    · rw [hstep] at h
      cases h
    · rw [hstep] at h ⊢
      cases h
      obtain ⟨k, hk, hrun⟩ := Run.advances_of_stop_eq_none hnone
      exact ⟨k, _, by omega, hrun, rfl, controlFallsThrough k s _ hrun, hstops⟩

end Sys2Proof.Machine
